-- ==== Sys2Proof/Word.lean ====
section
/-! DEFINITION. The command word (spec/30_encoding.md R41). Values are naturals: "every value is an unsigned integer"
(00_scope.md section 6), and every bound is a rule of its own (R13, R100, R101). -/

namespace Sys2Proof

/-- A command word (R41): `len` bits, bit 0 the least significant. The length is part of the word, because a word of
the wrong length is no command (R49). -/
structure CmdWord where
  len  : Nat
  bits : BitVec len
  deriving DecidableEq, Repr

end Sys2Proof
end

