-- ==== Sys2Proof/Config.lean ====
section
/-! DEFINITION. The parameter record of an instance (R8, R14 to R20), the constants of the build that `State.reset` shows,
and the one parameter the spec leaves open, HEX_STYLE (R89). -/

namespace Sys2Proof

/-- The six defining parameters (R8). Which records are legal is `Params.Legal` (WellFormed.lean). `POLY` is stored
without its top bit (R16). The metadata of R22 has no field. -/
structure Params where
  /-- `WIDTH` (R15). -/
  width  : Nat
  /-- `POLY` (R16). -/
  poly   : Nat
  /-- `INIT` (R17). -/
  init   : Nat
  /-- `REFIN` (R18). -/
  refin  : Bool
  /-- `REFOUT` (R19). -/
  refout : Bool
  /-- `XOROUT` (R20). -/
  xorout : Nat
  deriving DecidableEq, Repr

/-- The constants in place when the build of `State.reset` comes out of reset: the catalogue's CRC-32/ISO-HDLC.
PRESUMED (93_implementation_defined.md G1; the spec gives no default, R8). Log entry 2, unsafe: no claim rests on it but
those that name it. -/
def Config.build : Params :=
  { width := 32, poly := 0x04C11DB7, init := 0xFFFFFFFF, refin := true, refout := true, xorout := 0xFFFFFFFF }

/-- HEX_STYLE (R89): the digit case, and any text written before the digits. -/
structure HexStyle where
  upper : Bool
  lead  : List Char
  deriving DecidableEq, Repr, Inhabited

/-- The HEX_STYLE of this implementation, which R89 and D20 leave open: uninterpreted, so nothing can be proved of its
value. Log entry 9, safe. -/
opaque Config.hexStyle : HexStyle

end Sys2Proof
end

