-- ==== Sys2Proof/Syntax.lean ====
section
/-! DEFINITION. The operations of the block, one constructor per row of spec/opcode_table.json (R3, R40, R49, R51), and what
a host issues. -/

namespace Sys2Proof

/-- The byte order of a serialised result, chosen by the caller per call (R33, R88). -/
inductive ByteOrder where
  | big
  | little
  deriving DecidableEq, Repr

/-- The operations (R40, R45, R51). Byte operands and `width` are unbounded integers and value operands unbounded naturals,
so that the range errors R96 to R101 are part of the model (log entry 8). -/
inductive Instr where
  /-- `RESET` (R69). -/
  | reset
  /-- `LOAD v` (R70). -/
  | load (v : Nat)
  /-- `BYTE d` (R65). -/
  | byte (d : Int)
  /-- `FINAL` (R67). -/
  | final
  /-- `VALUE` (R68). -/
  | value
  /-- `REFL8 d` (R55). -/
  | refl8 (d : Int)
  /-- `REFLW v` (R60). -/
  | reflw (v : Nat)
  /-- The reserved operation code 0 (R49), with the command word that R102 records. -/
  | illegal (w : CmdWord)
  /-- `CONSTRUCT` (R63); it has no command word (R46). -/
  | construct (width : Int) (poly init : Nat) (refin refout : Bool) (xorout : Nat)
  /-- `PROCESS data` (R66). -/
  | process (data : List Int)
  /-- `COMPUTE data` and `COMPUTE data, iv` (R86). -/
  | compute (data : List Int) (iv : Option Nat)
  /-- `FINAL_BYTES order` (R88). -/
  | finalBytes (order : ByteOrder)
  /-- `FINAL_HEX order` (R89). -/
  | finalHex (order : ByteOrder)
  deriving DecidableEq, Repr

/-- What a host issues: a command word (R41), an operation by name as in the source's API (R40, R46), or the choice of
another existing instance to issue to (R108; log entry 5). -/
inductive Command where
  | word (w : CmdWord)
  | call (i : Instr)
  | select (k : Nat)
  deriving DecidableEq, Repr

end Sys2Proof
end

