-- ==== Sys2Proof/WellFormed.lean ====
section
/-! DEFINITION. Which parameter records are legal (R8, R63) and which operations are well formed on an instance of a given
width (R47, R100, R101). -/

namespace Sys2Proof

/-- The legal parameter records (R8, R63): `WIDTH >= 1`, and `POLY`, `INIT`, `XOROUT` fit in `WIDTH` bits. -/
abbrev Params.Legal (p : Params) : Prop :=
  1 ≤ p.width ∧ p.poly < 2 ^ p.width ∧ p.init < 2 ^ p.width ∧ p.xorout < 2 ^ p.width

/-- A byte operand is in `0..255` (R29, R100). -/
def byteOk (d : Int) : Bool := decide (0 ≤ d ∧ d ≤ 255)

/-- A value operand fits in `WIDTH` bits (R47, R101). -/
def valueOk (width : Nat) (v : Nat) : Bool := decide (v < 2 ^ width)

/-- Well-formedness of an operation on an instance of width `width`: every operand is in its range. `illegal` is well
formed when its word is one of the reserved code, `op = 0` (R49). -/
def Instr.wellFormed (width : Nat) : Instr → Bool
  | .reset => true
  | .load v => valueOk width v
  | .byte d => byteOk d
  | .final => true
  | .value => true
  | .refl8 d => byteOk d
  | .reflw v => valueOk width v
  | .illegal w => decide (w.bits.toNat % 8 = 0)
  | .construct w poly init _ _ xorout =>
      decide (1 ≤ w) && valueOk w.toNat poly && valueOk w.toNat init && valueOk w.toNat xorout
  | .process data => data.all byteOk
  | .compute data iv => data.all byteOk && (iv.all (valueOk width))
  | .finalBytes _ => true
  | .finalHex _ => true

/-- The operations that have a command word (R45, R46, R49). -/
def Instr.encodable : Instr → Bool
  | .reset => true
  | .load _ => true
  | .byte _ => true
  | .final => true
  | .value => true
  | .refl8 _ => true
  | .reflw _ => true
  | .illegal _ => true
  | .construct _ _ _ _ _ _ => false
  | .process _ => false
  | .compute _ _ => false
  | .finalBytes _ => false
  | .finalHex _ => false

end Sys2Proof
end

