-- ==== Sys2Proof/Decode.lean ====
section
/-! DEFINITION. The decoder of command words (R41 to R49), total on every word and rejecting by name, then the encoder,
written from the same rules, and the host's view of the opcode table. -/

namespace Sys2Proof

/-- `v[hi:lo]` (00_scope.md section 6): `(v >> lo) mod 2^(hi-lo+1)`. -/
def slice (v : Nat) (hi lo : Nat) : Nat := (v >>> lo) % 2 ^ (hi - lo + 1)

/-- `v[i]`, bit `i` of a value, 0 or 1 (00_scope.md section 6, bit numbering). -/
def bitAt (v i : Nat) : Nat := (v >>> i) % 2

/-- The command word of `len` bits that stands for the integer `c`. -/
def CmdWord.ofNat (len c : Nat) : CmdWord := ⟨len, BitVec.ofNat len c⟩

/-- The three command formats (R42, R43, R44). -/
inductive Format where
  | n
  | b
  | v
  deriving DecidableEq, Repr

/-- The length of each format on an instance of width `width` (R42, R43, R44). -/
def formatLength (width : Nat) : Format → Nat
  | .n => 3
  | .b => 11
  | .v => width + 3

/-- The format of each operation code (R45); the reserved code 0 is listed under format N. -/
def formatOf (op : Nat) : Format :=
  match op with
  | 2 => .v
  | 3 => .b
  | 6 => .b
  | 7 => .v
  | _ => .n

/-- The operation code, command bits `[2:0]` (R41); a bit the word does not have reads 0 (log entry 10). -/
def CmdWord.op (w : CmdWord) : Nat := slice w.bits.toNat 2 0

/-- The operand of format B, `d = c[10:3]` (R43, R47). -/
def CmdWord.byteField (w : CmdWord) : Nat := slice w.bits.toNat 10 3

/-- The operand of format V, `v = c[WIDTH+2:3]` (R44, R47). -/
def CmdWord.valueField (width : Nat) (w : CmdWord) : Nat := slice w.bits.toNat (width + 2) 3

/-- Why the decoder refuses a word. -/
inductive DecodeError where
  /-- The word's length is not that of its format on this instance (R49, R102); it is neither truncated nor padded. -/
  | wrongLength (w : CmdWord)
  deriving DecidableEq, Repr

/-- The decoder of an instance of width `width`. Operation code 0 is the table's reserved row whatever the length of the
word (R102); any other word has the length of its format or is refused (R49). -/
def decode (width : Nat) (w : CmdWord) : Except DecodeError Instr :=
  if w.op = 0 then .ok (.illegal w)
  else if w.len ≠ formatLength width (formatOf w.op) then .error (.wrongLength w)
  else
    match w.op with
    | 1 => .ok .reset
    | 2 => .ok (.load (w.valueField width))
    | 3 => .ok (.byte (w.byteField : Int))
    | 4 => .ok .final
    | 5 => .ok .value
    | 6 => .ok (.refl8 (w.byteField : Int))
    | 7 => .ok (.reflw (w.valueField width))
    | _ => .ok (.illegal w)

/-- `{a, op}`, the operand above the three bits of the operation code (R41; concatenation of 00_scope.md section 6). -/
def withOp (a op : Nat) : Nat := a * 2 ^ 3 + op

/-- The command word of format N (R42). -/
def wordN (op : Nat) : CmdWord := CmdWord.ofNat 3 (withOp 0 op)

/-- The command word of format B (R43); an operand outside the field has no word. -/
def wordB (d : Int) (op : Nat) : Option CmdWord :=
  if byteOk d then some (CmdWord.ofNat 11 (withOp d.toNat op)) else none

/-- The command word of format V (R44); an operand outside the field has no word. -/
def wordV (width : Nat) (v : Nat) (op : Nat) : Option CmdWord :=
  if valueOk width v then some (CmdWord.ofNat (width + 3) (withOp v op)) else none

/-- The encoder: the command word of an operation on an instance of width `width` (R42 to R45). The five rows without a
command word (R46, R85, R86, R88, R89) have none. -/
def encode (width : Nat) : Instr → Option CmdWord
  | .reset => some (wordN 1)
  | .load v => wordV width v 2
  | .byte d => wordB d 3
  | .final => some (wordN 4)
  | .value => some (wordN 5)
  | .refl8 d => wordB d 6
  | .reflw v => wordV width v 7
  | .illegal w => if w.op = 0 then some w else none
  | .construct _ _ _ _ _ _ => none
  | .process _ => none
  | .compute _ _ => none
  | .finalBytes _ => none
  | .finalHex _ => none

/-- The command word whose bits, numbered as the opcode table numbers them, are `w`: the word has the length its operation
code gives it. Where `w` has a bit above that length, it is no word of that format and is taken as a word of `nbits` bits,
which the decoder refuses (log entry 11). -/
def tableWord (width nbits w : Nat) : CmdWord :=
  let n := formatLength width (formatOf (slice w 2 0))
  if w < 2 ^ n then CmdWord.ofNat n w else CmdWord.ofNat nbits w

/-- What the decoder of the build reads from the table's bits `w`; none where it refuses. -/
def decodeTableWord (nbits w : Nat) : Option Instr :=
  match decode Config.build.width (tableWord Config.build.width nbits w) with
  | .ok i => some i
  | .error _ => none

end Sys2Proof
end

