-- ==== Sys2Proof/Machine/State.lean ====
section
/-! DEFINITION. The state of the block and its host side, the errors and results it hands back, and reset (R12 to R26, R104,
R108, R112). -/

namespace Sys2Proof.Machine

/-- The seven errors of 60_exceptions.md section 1, each with the value it records. An error is no fault: it is handed to
the host in place of a result and changes nothing else (R104; log entry 3). -/
inductive Error where
  /-- Code 1, raised by CONSTRUCT: `width <= 0` (R96). -/
  | configWidth (width : Int)
  /-- Code 2, raised by CONSTRUCT: `poly >= 2^width` (R97). -/
  | configPolyRange (poly : Nat)
  /-- Code 3, raised by CONSTRUCT: `init >= 2^width` (R98). -/
  | configInitRange (init : Nat)
  /-- Code 4, raised by CONSTRUCT: `xorout >= 2^width` (R99). -/
  | configXorRange (xorout : Nat)
  /-- Code 5, raised by BYTE, PROCESS, REFL8, COMPUTE: an input byte outside `0..255`, with its index (R100). -/
  | byteRange (value : Int) (index : Nat)
  /-- Code 6, raised by LOAD, REFLW, COMPUTE with `iv`: an operand `>= 2^WIDTH` (R101). -/
  | valueRange (v : Nat)
  /-- Code 7, raised by the decoder and by the reserved operation code (R102). -/
  | illegalCommand (w : CmdWord)
  deriving DecidableEq, Repr

/-- What an operation hands back to the host (R48, R104). -/
inductive Response where
  /-- No operation has been executed yet. -/
  | idle
  /-- The operation handed back nothing (R48). -/
  | done
  /-- One unsigned integer (R48). -/
  | value (v : Nat)
  /-- The bytes of FINAL_BYTES, in sequence order (R88). -/
  | bytes (bs : List Nat)
  /-- The text of FINAL_HEX (R89). -/
  | text (cs : List Char)
  /-- CONSTRUCT's instance, by its place in `State.instances` (R40, R63). -/
  | created (k : Nat)
  /-- An error in place of a result (R104). -/
  | error (e : Error)
  deriving DecidableEq, Repr

/-- The machine state of one instance: the register `R` and nothing else (R12). The constants are not in it (R14): the step
function of an engine (`engineStep`, Machine/EngineStep.lean) takes them as an argument. -/
structure Engine where
  /-- `R`, `WIDTH` bits (R12, R13). -/
  r : Nat
  deriving DecidableEq, Repr

/-- One engine instance: the machine state `engine`, and the constants it was constructed with (R14), which its owner hands to
the step function. The host's `step : State → …` takes no configuration, so the two stand side by side here (log entry 1). -/
structure Instance where
  params : Params
  engine : Engine
  deriving DecidableEq, Repr

/-- Why the machine stops with a fault. -/
inductive Fault where
  /-- Raised by every operation but CONSTRUCT, and by a command word or a `select`, when the instance it is issued to does
  not exist: "no later operation can be issued to it" (R104). Safe: the machine stops where the spec has no run.
  Log entry 13. -/
  | noInstance
  /-- Raised by the configured machine alone (`blockStep`, Machine/Configured.lean) for CONSTRUCT, which "cannot be issued to a
  living instance" (R46). Safe: the spec has no such run. `exec` and `step` never raise it: there CONSTRUCT makes another
  instance. Log entry 1. -/
  | livingInstance
  deriving DecidableEq, Repr

/-- Why an instruction has no meaning. -/
inductive Refusal where
  /-- Raised by `exec` for an instruction that is not modelled. No arm raises it. Safe. -/
  | notModelled (mnemonic : String)
  deriving DecidableEq, Repr

/-- The machine: the instances that exist, and the host's side of the interface. Plain data.
`sel`, `pending` and `response` are the model's own (log entries 5, 6, 7). -/
structure State where
  /-- The instances constructed so far (R108); an instance never leaves the list. -/
  instances : List Instance
  /-- The instance the host issues its next operation to; none after a failed CONSTRUCT (R104). -/
  sel       : Option Nat
  /-- What the host has issued and the block has not yet taken, in issue order (R24, R37). -/
  pending   : List Command
  /-- What the last operation handed back (R48, R104). No operation reads it. -/
  response  : Response
  deriving DecidableEq, Repr

/-- The instance the next operation is issued to, if it exists. -/
def State.current (s : State) : Option Instance :=
  match s.sel with
  | none => none
  | some k => s.instances[k]?

/-- The machine right after a reset that loads the constants `p`: "its six constants are in place and valid, and `R = INIT`"
(R112). Nothing is pending: the block waits for the host's first operation (R114). -/
def State.afterReset (p : Params) : State :=
  { instances := [{ params := p, engine := { r := p.init } }], sel := some 0, pending := [], response := .idle }

/-- The machine right after reset of the build (R112; its constants are `Config.build`, log entry 2). -/
def State.reset : State := State.afterReset Config.build

end Sys2Proof.Machine
end

