-- ==== Sys2Proof/Machine/Ops.lean ====
section
/-! DEFINITION. The operations every meaning is built from: what an operation does to an engine (R12, R14), running it on the
selected instance, error entry (R104), adding an instance (R63). -/

namespace Sys2Proof.Machine

/-- The outcome of an operation. -/
abbrev Result := Host.Outcome State Fault Refusal

/-- What an operation does to the engine it is issued to: it leaves `R` or writes it, and hands something back (R40, R48). It
cannot touch the constants (R14) or another instance (R108). -/
inductive Effect where
  | keep (x : Response)
  | write (v : Nat) (x : Response)
  deriving DecidableEq, Repr

/-- The engine after an effect. -/
def Effect.engine (m : Engine) : Effect → Engine
  | .keep _ => m
  | .write v _ => { r := v }

/-- What an effect hands back. -/
def Effect.handsBack : Effect → Response
  | .keep x => x
  | .write _ x => x

/-- Error entry (R104): the operation has no effect, and the error is handed to the host in place of a result. There is no
saved state, no mode, no handler and nothing sticky, and so no return operation (R109): the host issues its next operation. -/
def refuse (e : Error) : Effect := .keep (.error e)

/-- The effect of an operation whose operand is checked before any state changes (R100, R101, R104). -/
def effectOf {α : Type} (c : Except Error α) (f : α → Effect) : Effect :=
  match c with
  | .ok a => f a
  | .error err => refuse err

/-- `R <- v` on the selected instance; its constants and every other instance stay (R14, R108). -/
def writeR (v : Nat) (s : State) : State :=
  match s.sel with
  | some k => { s with instances := s.instances.modify k (fun e => { e with engine := { r := v } }) }
  | none => s

/-- The machine after an effect on the selected instance. -/
def Effect.apply (s : State) : Effect → State
  | .keep x => { s with response := x }
  | .write v x => { writeR v s with response := x }

/-- An operation on the selected instance: it is given the constants as an argument and the engine as state (R14). With no such
instance it cannot be issued (R104, log entry 13). -/
def onEngine (s : State) (f : Params → Engine → Effect) : Result :=
  match s.current with
  | some e => .next ((f e.params e.engine).apply s)
  | none => .fault .noInstance

/-- An error handed to the host with no effect (R104). -/
def raise (e : Error) (s : State) : Result := .next ((refuse e).apply s)

/-- The engine that comes out of CONSTRUCT or a reset with these constants: `R = INIT` (R63, R112). -/
def Engine.fresh (cfg : Params) : Engine := { r := cfg.init }

/-- A new instance comes into existence with `R = INIT` (R63), and the host issues its next operations to it. The instances
that exist stay as they are (R108, R116). -/
def addInstance (p : Params) (s : State) : Result :=
  .next { s with
    instances := s.instances ++ [{ params := p, engine := Engine.fresh p }]
    sel := some s.instances.length
    response := .created s.instances.length }

/-- A failed CONSTRUCT: it "produces no instance, so there is no register, and no later operation can be issued to it"
(R104; log entry 4). The instances that exist stay. -/
def failConstruct (e : Error) (s : State) : Result := raise e { s with sel := none }

/-- The codes of 60_exceptions.md section 1 (R96 to R102). -/
def Error.code : Error → Nat
  | .configWidth _ => 1
  | .configPolyRange _ => 2
  | .configInitRange _ => 3
  | .configXorRange _ => 4
  | .byteRange _ _ => 5
  | .valueRange _ => 6
  | .illegalCommand _ => 7

end Sys2Proof.Machine
end

