-- ==== Sys2Proof/Machine/Operands.lean ====
section
/-! DEFINITION. The operand forms and their checks, made on the whole operand before any state changes (R47, R100, R101), and
the constants derived from the configuration (R21). -/

namespace Sys2Proof.Machine

/-- The check of the input byte at `index` (R100). -/
def checkByte (d : Int) (index : Nat) : Except Error Nat :=
  if byteOk d then .ok d.toNat else .error (.byteRange d index)

/-- The check of a byte sequence, whose first element has index `index`: the error is that of the lowest offending index
(R100, R103). -/
def checkBytesFrom (index : Nat) : List Int → Except Error (List Nat)
  | [] => .ok []
  | d :: ds =>
    match checkByte d index with
    | .error e => .error e
    | .ok b =>
      match checkBytesFrom (index + 1) ds with
      | .error e => .error e
      | .ok bs => .ok (b :: bs)

/-- The check of the operand of PROCESS and COMPUTE (R100). -/
def checkBytes (data : List Int) : Except Error (List Nat) := checkBytesFrom 0 data

/-- The check of a `WIDTH`-bit operand (R101). -/
def checkValue (p : Params) (v : Nat) : Except Error Nat :=
  if valueOk p.width v then .ok v else .error (.valueRange v)

/-- `HIGHBIT` (R21). -/
def highbit (p : Params) : Nat := 1 <<< (p.width - 1)

/-- `MASK` (R21). -/
def mask (p : Params) : Nat := (1 <<< p.width) - 1

/-- `S`, the enlargement amount (R21). -/
def enlarge (p : Params) : Nat := if p.width < 8 then 8 - p.width else 0

/-- `WW`, the working width (R21). -/
def workWidth (p : Params) : Nat := if p.width < 8 then 8 else p.width

/-- `HIGHBIT_W` (R21). -/
def highbitW (p : Params) : Nat := 1 <<< (workWidth p - 1)

/-- `MASK_W` (R21). -/
def maskW (p : Params) : Nat := (1 <<< workWidth p) - 1

/-- `POLY_W`, the polynomial pre-shifted into the working width (R21). -/
def polyW (p : Params) : Nat := p.poly <<< enlarge p

end Sys2Proof.Machine
end

