-- ==== Sys2Proof/Machine/Engine.lean ====
section
/-! DEFINITION. The engine operations (spec/41_crc_engine.md): the fold (R64), BYTE, PROCESS, FINAL, VALUE, RESET, LOAD (R65 to
R70), and the reserved code (R102). The functions of the datapath take the configuration as an argument (R14). -/

namespace Sys2Proof.Machine

/-- One of the 8 iterations of R64: the top bit is tested before the shift, and the result masked to the working width. -/
def foldStep (p : Params) (t : Nat) : Nat :=
  if t &&& highbitW p ≠ 0 then ((t <<< 1) ^^^ polyW p) &&& maskW p else (t <<< 1) &&& maskW p

/-- `fold(T, e)` (R64): the byte aligned with the top of the working register, then exactly 8 iterations. -/
def fold (p : Params) (t e : Nat) : Nat :=
  (foldStep p)^[8] (t ^^^ (e <<< (workWidth p - 8)))

/-- The byte that is folded: `LUT[d]` if `REFIN`, else `d` (R65). -/
def inputByte (p : Params) (d : Nat) : Nat := if p.refin then lutRead d else d

/-- The new `R` of BYTE d (R65): enlarge, fold, shrink. -/
def byteR (p : Params) (r d : Nat) : Nat :=
  (fold p (r <<< enlarge p) (inputByte p d)) >>> enlarge p

/-- The new `R` of PROCESS data (R66): enlarge once, fold the bytes in order, shrink once. -/
def processR (p : Params) (r : Nat) (data : List Nat) : Nat :=
  (data.foldl (fun t d => fold p t (inputByte p d)) (r <<< enlarge p)) >>> enlarge p

/-- The result of FINAL (R67): the output reflection first, then the XOR. -/
def finalValue (p : Params) (r : Nat) : Nat :=
  (if p.refout then reflectBits p.width r else r) ^^^ p.xorout

/-- BYTE d on an engine (R65): ByteRange for `d` outside `0..255`, `R` unchanged (R100). -/
def byteEffect (d : Int) (cfg : Params) (m : Engine) : Effect :=
  effectOf (checkByte d 0) fun b => .write (byteR cfg m.r b) .done

/-- PROCESS data on an engine (R66): ByteRange is checked before any byte is folded (R100). -/
def processEffect (data : List Int) (cfg : Params) (m : Engine) : Effect :=
  effectOf (checkBytes data) fun bs => .write (processR cfg m.r bs) .done

/-- FINAL on an engine (R67): `R` is not written. -/
def finalEffect (cfg : Params) (m : Engine) : Effect := .keep (.value (finalValue cfg m.r))

/-- VALUE on an engine (R68): the raw register. -/
def valueEffect (_cfg : Params) (m : Engine) : Effect := .keep (.value m.r)

/-- RESET on an engine (R69): `R <- INIT`. -/
def resetEffect (cfg : Params) (_m : Engine) : Effect := .write cfg.init .done

/-- LOAD v on an engine (R70): `R <- v`; ValueRange for `v >= 2^WIDTH`, `R` unchanged (R101). -/
def loadEffect (v : Nat) (cfg : Params) (_m : Engine) : Effect :=
  effectOf (checkValue cfg v) fun x => .write x .done

/-- The reserved operation code 0 on an engine (R49, R102): IllegalCommand, which records the word. Nothing changes. -/
def illegalEffect (w : CmdWord) (_cfg : Params) (_m : Engine) : Effect := refuse (.illegalCommand w)

/-- BYTE d (R65). -/
def execByte (d : Int) (s : State) : Result := onEngine s (byteEffect d)

/-- PROCESS data (R66). -/
def execProcess (data : List Int) (s : State) : Result := onEngine s (processEffect data)

/-- FINAL (R67). -/
def execFinal (s : State) : Result := onEngine s finalEffect

/-- VALUE (R68). -/
def execValue (s : State) : Result := onEngine s valueEffect

/-- RESET (R69). -/
def execReset (s : State) : Result := onEngine s resetEffect

/-- LOAD v (R70). -/
def execLoad (v : Nat) (s : State) : Result := onEngine s (loadEffect v)

/-- The reserved operation code 0 (R49, R102). -/
def execIllegal (w : CmdWord) (s : State) : Result := onEngine s (illegalEffect w)

end Sys2Proof.Machine
end

