-- ==== Sys2Proof/Machine/Composed.lean ====
section
/-! DEFINITION. The composed operations (spec/42_pseudo_operations.md): COMPUTE (R86), FINAL_BYTES (R88), FINAL_HEX (R89), and
the expansions R85 and R86 as lists of encoded operations. -/

namespace Sys2Proof.Machine

/-- The check of COMPUTE's optional `iv`, made before that of the data (R103); by default the register starts from `INIT`. -/
def checkStart (p : Params) : Option Nat → Except Error Nat
  | none => .ok p.init
  | some v => checkValue p v

/-- COMPUTE on an engine (R86): the register starts from `INIT` or `iv`, the data are processed, the result is that of FINAL,
and the register keeps the raw value. On an error `R` is unchanged (R100, R103; log entry 15). -/
def computeEffect (data : List Int) (iv : Option Nat) (cfg : Params) (_m : Engine) : Effect :=
  effectOf (checkStart cfg iv) fun r0 => effectOf (checkBytes data) fun bs =>
    .write (processR cfg r0 bs) (.value (finalValue cfg (processR cfg r0 bs)))

/-- COMPUTE (R86). -/
def execCompute (data : List Int) (iv : Option Nat) (s : State) : Result := onEngine s (computeEffect data iv)

/-- The number of bytes of a serialised result, `(WIDTH + 7) >> 3` (R88). -/
def byteCount (p : Params) : Nat := (p.width + 7) >>> 3

/-- The serialisation of R88: `c[8*k+7 : 8*k]` for `k = 0..n-1`, least significant byte first, reversed for big-endian. -/
def serialise (p : Params) (order : ByteOrder) (c : Nat) : List Nat :=
  let le := (List.range (byteCount p)).map fun k => slice c (8 * k + 7) (8 * k)
  match order with
  | .little => le
  | .big => le.reverse

/-- One hexadecimal digit, in the case HEX_STYLE chooses (R89). -/
def hexDigit (style : HexStyle) (n : Nat) : Char :=
  if n < 10 then Char.ofNat (48 + n)
  else if style.upper then Char.ofNat (55 + n) else Char.ofNat (87 + n)

/-- The two digits of a byte (R89). -/
def hexByte (style : HexStyle) (b : Nat) : List Char :=
  [hexDigit style (slice b 7 4), hexDigit style (slice b 3 0)]

/-- The text of R89: what HEX_STYLE puts first, then two digits for each byte in sequence order. -/
def hexText (style : HexStyle) (bs : List Nat) : List Char :=
  style.lead ++ bs.flatMap (hexByte style)

/-- FINAL_BYTES on an engine (R88): it writes nothing. -/
def finalBytesEffect (order : ByteOrder) (cfg : Params) (m : Engine) : Effect :=
  .keep (.bytes (serialise cfg order (finalValue cfg m.r)))

/-- FINAL_HEX on an engine (R89): it writes nothing. -/
def finalHexEffect (order : ByteOrder) (cfg : Params) (m : Engine) : Effect :=
  .keep (.text (hexText Config.hexStyle (serialise cfg order (finalValue cfg m.r))))

/-- FINAL_BYTES (R88). -/
def execFinalBytes (order : ByteOrder) (s : State) : Result := onEngine s (finalBytesEffect order)

/-- FINAL_HEX (R89). -/
def execFinalHex (order : ByteOrder) (s : State) : Result := onEngine s (finalHexEffect order)

/-- The command sequence PROCESS expands to (R85). -/
def expandProcess (data : List Int) : List Instr := data.map .byte

/-- The first operation of COMPUTE's expansion (R86): RESET by default, LOAD iv when `iv` is given. -/
def startOp : Option Nat → Instr
  | none => .reset
  | some v => .load v

/-- The sequence COMPUTE expands to (R86), with PROCESS expanded in turn (R85). -/
def expandCompute (data : List Int) (iv : Option Nat) : List Instr :=
  startOp iv :: (expandProcess data ++ [.final])

end Sys2Proof.Machine
end

