-- ==== Sys2Proof/Machine/Construct.lean ====
section
/-! DEFINITION. CONSTRUCT (R63) and its four errors in their order (R96 to R99, R103). -/

namespace Sys2Proof.Machine

/-- The four tests of R63, in order; with `width <= 0` the range tests are not made (R103). -/
def checkParams (width : Int) (poly init : Nat) (refin refout : Bool) (xorout : Nat) : Except Error Params :=
  if width ≤ 0 then .error (.configWidth width)
  else if 2 ^ width.toNat ≤ poly then .error (.configPolyRange poly)
  else if 2 ^ width.toNat ≤ init then .error (.configInitRange init)
  else if 2 ^ width.toNat ≤ xorout then .error (.configXorRange xorout)
  else .ok { width := width.toNat, poly := poly, init := init, refin := refin, refout := refout, xorout := xorout }

/-- The tests of R63 pass on what they let through. -/
theorem checkParams_legal {width : Int} {poly init : Nat} {refin refout : Bool} {xorout : Nat} {p : Params}
    (h : checkParams width poly init refin refout xorout = .ok p) : p.Legal := by
  unfold checkParams at h
  split at h <;> try contradiction
  split at h <;> try contradiction
  split at h <;> try contradiction
  split at h <;> try contradiction
  cases h
  exact ⟨by show 1 ≤ width.toNat; omega, Nat.lt_of_not_le ‹¬2 ^ width.toNat ≤ poly›,
    Nat.lt_of_not_le ‹¬2 ^ width.toNat ≤ init›, Nat.lt_of_not_le ‹¬2 ^ width.toNat ≤ xorout›⟩

/-- A configuration: "the raw record plus a proof that rule R63's tests pass" (R111), so that no step meets an ill-formed one. -/
abbrev Configuration := { p : Params // p.Legal }

/-- CONSTRUCT as the making of a configuration: the constants are given and checked here, once (R14, R63, R115). -/
def configure (width : Int) (poly init : Nat) (refin refout : Bool) (xorout : Nat) : Except Error Configuration :=
  match h : checkParams width poly init refin refout xorout with
  | .ok p => .ok ⟨p, checkParams_legal h⟩
  | .error err => .error err

/-- CONSTRUCT (R63): a new instance with `R = INIT`, or an error and no instance (R104). It needs no existing instance and
changes none (R116). -/
def execConstruct (width : Int) (poly init : Nat) (refin refout : Bool) (xorout : Nat) (s : State) : Result :=
  match checkParams width poly init refin refout xorout with
  | .ok p => addInstance p s
  | .error err => failConstruct err s

end Sys2Proof.Machine
end

