-- ==== Sys2Proof/Machine/Dispatch.lean ====
section
/-! DEFINITION. The dispatch of every operation to its meaning. -/

namespace Sys2Proof.Machine

def exec (i : Instr) (s : State) : Host.Outcome State Fault Refusal :=
  match i with
  | .reset => Sys2Proof.Machine.execReset s
  | .load v => Sys2Proof.Machine.execLoad v s
  | .byte d => Sys2Proof.Machine.execByte d s
  | .final => Sys2Proof.Machine.execFinal s
  | .value => Sys2Proof.Machine.execValue s
  | .refl8 d => Sys2Proof.Machine.execRefl8 d s
  | .reflw v => Sys2Proof.Machine.execReflw v s
  | .illegal w => Sys2Proof.Machine.execIllegal w s
  | .construct width poly init refin refout xorout => Sys2Proof.Machine.execConstruct width poly init refin refout xorout s
  | .process data => Sys2Proof.Machine.execProcess data s
  | .compute data iv => Sys2Proof.Machine.execCompute data iv s
  | .finalBytes order => Sys2Proof.Machine.execFinalBytes order s
  | .finalHex order => Sys2Proof.Machine.execFinalHex order s

end Sys2Proof.Machine
end

