-- ==== Sys2Proof/Machine/Issue.lean ====
section
/-! DEFINITION. Taking one issued command, and running an operation list (R24, R37, R84, R121). -/

namespace Sys2Proof.Machine

/-- A command word, decoded at the width of the instance it is issued to. A word of the wrong length is IllegalCommand, which
records it and precedes every other error (R102, R103). -/
def issueWord (w : CmdWord) (s : State) : Result :=
  match s.current with
  | some e =>
    match decode e.params.width w with
    | .ok i => exec i s
    | .error (.wrongLength w') => raise (.illegalCommand w') s
  | none => .fault .noInstance

/-- The host turns to the instance `k` (R108); there must be one (log entries 5, 13). No operation is executed. -/
def selectInstance (k : Nat) (s : State) : Result :=
  if k < s.instances.length then .next { s with sel := some k } else .fault .noInstance

/-- One issued command. -/
def issue (c : Command) (s : State) : Result :=
  match c with
  | .word w => issueWord w s
  | .call i => exec i s
  | .select k => selectInstance k s

/-- Take the oldest issued command (R37). With nothing issued the block waits: the state stays (R114; log entry 7). -/
def takeNext (s : State) : Result :=
  match s.pending with
  | [] => .next s
  | c :: rest => issue c { s with pending := rest }

/-- Put a command before every other, so that the next step takes it. -/
def putFirst (c : Command) (s : State) : State := { s with pending := c :: s.pending }

/-- The width at which the selected instance decodes; with none selected, the build's. -/
def decodeWidth (s : State) : Nat :=
  match s.current with
  | some e => e.params.width
  | none => Config.build.width

/-- The values a result-returning operation handed back (R84): CONSTRUCT's instance and an error are no values. -/
def Response.returned : Response → List Response
  | .idle => []
  | .done => []
  | .value v => [.value v]
  | .bytes bs => [.bytes bs]
  | .text cs => [.text cs]
  | .created _ => []
  | .error _ => []

/-- The outcome of a run (R84, D4): the values handed back in order, the end state, and the error the run stopped at. -/
structure Run where
  returned : List Response
  final    : State
  stopped  : Option Error
  deriving DecidableEq, Repr

/-- An operation list applied left to right (R24); "a run ends when the list ends or at the first refused operation" (D4,
R121). -/
def runOps : List Instr → State → Host.Outcome Run Fault Refusal
  | [], s => .next { returned := [], final := s, stopped := none }
  | i :: is, s =>
    match exec i s with
    | .fault f => .fault f
    | .refused r => .refused r
    | .next t =>
      match t.response with
      | .error e => .next { returned := [], final := t, stopped := some e }
      | x =>
        match runOps is t with
        | .fault f => .fault f
        | .refused r => .refused r
        | .next u => .next { u with returned := x.returned ++ u.returned }

end Sys2Proof.Machine
end

