-- ==== Sys2Proof/Machine/Step.lean ====
section
/-! DEFINITION. One step of the machine, and the host's way to have it run one command word. -/

namespace Sys2Proof.Machine

/-- One step: the oldest issued command is taken and executed, atomically (R10, R37). -/
def step (s : State) : Host.Outcome State Fault Refusal := takeNext s

/-- `s` with the command word of the table's bits `w` issued before every other command, so that the very next step takes it
(log entries 7, 11). -/
def State.withFetchWord (s : State) (nbits w : Nat) : State :=
  putFirst (.word (tableWord (decodeWidth s) nbits w)) s

end Sys2Proof.Machine
end

