-- ==== Sys2Proof/Machine/EngineStep.lean ====
section
/-! DEFINITION. The step function of one engine, as R14 has it: the constants are an argument, the state is `R` alone (R12).
`exec` runs every operation on the selected instance through the same effects. -/

namespace Sys2Proof.Machine

/-- What each operation does to an engine with the constants `cfg`. CONSTRUCT "cannot be issued to a living instance" (R46). -/
def engineEffect (cfg : Params) (i : Instr) (m : Engine) : Option Effect :=
  match i with
  | .reset => some (resetEffect cfg m)
  | .load v => some (loadEffect v cfg m)
  | .byte d => some (byteEffect d cfg m)
  | .final => some (finalEffect cfg m)
  | .value => some (valueEffect cfg m)
  | .refl8 d => some (refl8Effect d cfg m)
  | .reflw v => some (reflwEffect v cfg m)
  | .illegal w => some (illegalEffect w cfg m)
  | .construct _ _ _ _ _ _ => none
  | .process data => some (processEffect data cfg m)
  | .compute data iv => some (computeEffect data iv cfg m)
  | .finalBytes order => some (finalBytesEffect order cfg m)
  | .finalHex order => some (finalHexEffect order cfg m)

/-- One step of an engine: the constants are the argument `cfg`, the answer is the new machine state and what is handed back
(R10, R14). -/
def engineStep (cfg : Params) (i : Instr) (m : Engine) : Option (Engine × Response) :=
  (engineEffect cfg i m).map fun f => (f.engine m, f.handsBack)

/-- One step of an engine on a command word, decoded at `WIDTH` of the constants (R44, R49, R102). -/
def engineStepWord (cfg : Params) (w : CmdWord) (m : Engine) : Option (Engine × Response) :=
  match decode cfg.width w with
  | .ok i => engineStep cfg i m
  | .error (.wrongLength w') => some ((refuse (.illegalCommand w')).engine m, (refuse (.illegalCommand w')).handsBack)

end Sys2Proof.Machine
end

