-- ==== Sys2Proof/Machine/Configured.lean ====
section
/-! DEFINITION. The machine of R14, one for each configuration: the constants are an argument of its step function and are
stored nowhere in its state. CONSTRUCT makes such a machine and is no step of one (R46). The host's interface runs all instances
in one machine whose step has no such argument (Machine/Step.lean, log entry 1); that machine runs these. -/

namespace Sys2Proof.Machine

/-- What the host issues to one instance: a command word (R41) or an operation by name (R40). -/
inductive BlockCommand where
  | word (w : CmdWord)
  | call (i : Instr)
  deriving DecidableEq, Repr

/-- One instance as it runs: its machine state, which is `R` alone (R12), and the host's side of its interface, the operations
issued and not yet taken and what was handed back (log entries 6, 7). No constants (R14). -/
structure Block where
  engine   : Engine
  pending  : List BlockCommand
  response : Response
  deriving DecidableEq, Repr

/-- The instance right after CONSTRUCT or a reset with these constants (R63, R112). -/
def Block.fresh (cfg : Params) : Block := { engine := Engine.fresh cfg, pending := [], response := .idle }

/-- The engine's own step on one issued command, the constants its argument. -/
def engineTake (cfg : Params) (c : BlockCommand) (m : Engine) : Option (Engine × Response) :=
  match c with
  | .word w => engineStepWord cfg w m
  | .call i => engineStep cfg i m

/-- One step of the instance, its constants the argument `cfg` (R10, R14): the oldest issued operation is executed (R37); with
nothing issued the instance waits (R114). -/
def blockStep (cfg : Params) (b : Block) : Host.Outcome Block Fault Refusal :=
  match b.pending with
  | [] => .next b
  | c :: rest =>
    match engineTake cfg c b.engine with
    | some (m, x) => .next { engine := m, pending := rest, response := x }
    | none => .fault .livingInstance

/-- The machine of each configuration, whole, in the form of the host's interface. "A different parameter set means a different
instance" (R14): another machine. -/
def configuredCore (cfg : Configuration) : Host.Core :=
  { State := Block, Fault := Fault, Refusal := Refusal, step := blockStep cfg.1, reset := Block.fresh cfg.1 }

/-- CONSTRUCT (R63) makes a machine, or an error and none (R104). -/
def constructCore (width : Int) (poly init : Nat) (refin refout : Bool) (xorout : Nat) : Except Error Host.Core :=
  match configure width poly init refin refout xorout with
  | .ok cfg => .ok (configuredCore cfg)
  | .error err => .error err

/-- The command of the host's machine for one of an instance. -/
def BlockCommand.toCommand : BlockCommand → Command
  | .word w => .word w
  | .call i => .call i

end Sys2Proof.Machine
end

