-- ==== Sys2Proof/Machine/FastPath.lean ====
section
/-! DEFINITION. The fixed-width fast paths that R87 allows for widths 8, 16 and 32: the same algorithm "without the general
enlarge/shrink branch, operating directly in an 8/16/32-bit register". No meaning uses them; they are here because R87
demands that they agree with the general engine (log entry 18). -/

namespace Sys2Proof.Machine

/-- One iteration in a register of exactly `n` bits: the mask is implicit in the type (R72). -/
def fastStep {n : Nat} (poly t : BitVec n) : BitVec n :=
  if t.msb then (t <<< 1) ^^^ poly else t <<< 1

/-- One byte: XOR it into the top 8 bits, then 8 iterations (R87, R64). -/
def fastFold {n : Nat} (poly t : BitVec n) (e : BitVec 8) : BitVec n :=
  (fastStep poly)^[8] (t ^^^ (e.setWidth n <<< (n - 8)))

/-- The fast path's PROCESS, on a register of `WIDTH` bits. -/
def fastProcess (p : Params) (r : BitVec p.width) (data : List Nat) : BitVec p.width :=
  data.foldl (fun t d => fastFold (BitVec.ofNat p.width p.poly) t (BitVec.ofNat 8 (inputByte p d))) r

end Sys2Proof.Machine
end

