-- ==== Sys2Proof/Safety.lean ====
section
/-! DEFINITION. The terms claims are stated in: the invariant of the block (R13, R8), what an operation leaves unchanged, and the
bit-serial reference of R31. -/

namespace Sys2Proof

/-- CONSTRUCT is the one operation that is not issued to an existing instance (R46). -/
def Instr.isConstruct : Instr → Bool
  | .reset => false
  | .load _ => false
  | .byte _ => false
  | .final => false
  | .value => false
  | .refl8 _ => false
  | .reflw _ => false
  | .illegal _ => false
  | .construct _ _ _ _ _ _ => true
  | .process _ => false
  | .compute _ _ => false
  | .finalBytes _ => false
  | .finalHex _ => false

/-- The reserved operation code (R49). -/
def Instr.isIllegal : Instr → Bool
  | .reset => false
  | .load _ => false
  | .byte _ => false
  | .final => false
  | .value => false
  | .refl8 _ => false
  | .reflw _ => false
  | .illegal _ => true
  | .construct _ _ _ _ _ _ => false
  | .process _ => false
  | .compute _ _ => false
  | .finalBytes _ => false
  | .finalHex _ => false

/-- Who may write `R` of an existing instance (the table of R12, with COMPUTE by R86). -/
def Instr.writesR : Instr → Bool
  | .reset => true
  | .load _ => true
  | .byte _ => true
  | .final => false
  | .value => false
  | .refl8 _ => false
  | .reflw _ => false
  | .illegal _ => false
  | .construct _ _ _ _ _ _ => false
  | .process _ => true
  | .compute _ _ => true
  | .finalBytes _ => false
  | .finalHex _ => false

end Sys2Proof

namespace Sys2Proof.Machine

/-- An instance as R8 and R13 have it: legal constants, and `0 <= R < 2^WIDTH`. -/
def Instance.Ok (e : Instance) : Prop := e.params.Legal ∧ e.engine.r < 2 ^ e.params.width

/-- The invariant of the machine: every instance is as R8 and R13 have it, and the selected one exists. -/
def State.Inv (s : State) : Prop :=
  (∀ e ∈ s.instances, e.Ok) ∧ (∀ k, s.sel = some k → k < s.instances.length)

/-- Nothing but what was handed back differs: every register, every constant, the selection and what is pending stay. -/
def SameButResponse (s t : State) : Prop :=
  t.instances = s.instances ∧ t.sel = s.sel ∧ t.pending = s.pending

/-- The selected instance `e` has the register `v` now, with the constants it had; the selection, what is pending, the number
of instances and every other instance stay. -/
def WroteR (e : Instance) (v : Nat) (s t : State) : Prop :=
  t.current = some { params := e.params, engine := { r := v } } ∧ t.sel = s.sel ∧ t.pending = s.pending ∧
    t.instances.length = s.instances.length ∧
    ∀ k, s.sel ≠ some k → t.instances[k]? = s.instances[k]?

/-- The host's machine `s` is running, as its selected instance, the machine of the constants `cfg` in the state `b`: the same
register, the same operations issued, the same handed back. -/
def Shows (s : State) (cfg : Params) (b : Block) : Prop :=
  s.current = some { params := cfg, engine := b.engine } ∧ s.pending = b.pending.map BlockCommand.toCommand ∧
    s.response = b.response

/-- One bit fed to a register of exactly `WIDTH` bits, top bit first, whatever the width: the classical shift register, with
no working register and no enlargement. The reference that R31 describes ("bit-serial, MSB-first convention regardless of
declared width"); no meaning uses it. -/
def serialBit (p : Params) (r : Nat) (b : Bool) : Nat :=
  if (r.testBit (p.width - 1)) != b then (2 * r % 2 ^ p.width) ^^^ p.poly else 2 * r % 2 ^ p.width

/-- One byte fed bit by bit, bit 7 first (R31). -/
def serialByte (p : Params) (r e : Nat) : Nat :=
  (List.range 8).foldl (fun r i => serialBit p r (e.testBit (7 - i))) r

/-- One iteration of R64 without its mask, on unbounded integers (R72). -/
def foldStepUnmasked (p : Params) (t : Nat) : Nat :=
  if t.testBit (workWidth p - 1) then (t <<< 1) ^^^ polyW p else t <<< 1

/-- `"123456789"` (00_scope.md section 6, Sequences). -/
def digits19 : List Int := [0x31, 0x32, 0x33, 0x34, 0x35, 0x36, 0x37, 0x38, 0x39]

/-- The sixteen hexadecimal digits in either case. -/
def hexChars (upper : Bool) : List Char :=
  ['0', '1', '2', '3', '4', '5', '6', '7', '8', '9'] ++
    (if upper then ['A', 'B', 'C', 'D', 'E', 'F'] else ['a', 'b', 'c', 'd', 'e', 'f'])

end Sys2Proof.Machine
end

