-- ==== Sys2Proof/Certificates/Slice0/Obligations.lean ====
section
/-! DEFINITION. The statements for the provers. Each docstring names the rule of spec/ it formalises. -/

open Sys2Proof Sys2Proof.Machine

/-! Reset and the machine as a whole. -/

/-- R112: after CONSTRUCT, after RESET and right after a reset that loads the constants `p`, `R = INIT`. -/
def Obligations.ResetValueOfRIsInit : Prop :=
  (∀ p : Params, p.Legal → (State.afterReset p).current = some { params := p, engine := { r := p.init } }) ∧
  (∀ (s : State) (width : Int) (poly init : Nat) (refin refout : Bool) (xorout : Nat),
    1 ≤ width → poly < 2 ^ width.toNat → init < 2 ^ width.toNat → xorout < 2 ^ width.toNat →
    ∃ t, exec (.construct width poly init refin refout xorout) s = .next t ∧
      t.current = some { params := ⟨width.toNat, poly, init, refin, refout, xorout⟩, engine := { r := init } }) ∧
  (∀ (s : State) (e : Instance), s.current = some e →
    ∃ t, exec .reset s = .next t ∧ t.current = some { params := e.params, engine := { r := e.params.init } })

/-- R114: right after reset the block waits for the host, any operation may come first, and FINAL returns the finalization of
`INIT`. -/
def Obligations.AnyOperationMayFollowReset : Prop :=
  ∀ p : Params, p.Legal →
    step (State.afterReset p) = .next (State.afterReset p) ∧
    (∀ i : Instr, ∃ t, exec i (State.afterReset p) = .next t) ∧
    ∃ t, exec .final (State.afterReset p) = .next t ∧
      t.response = .value ((if p.refout then reflectBits p.width p.init else p.init) ^^^ p.xorout)

/-- The invariant holds right after a reset with any legal constants, and at `State.reset`, whose constants are the model's
choice (log entry 2). -/
def Obligations.InvariantHoldsAfterReset : Prop :=
  (∀ p : Params, p.Legal → (State.afterReset p).Inv) ∧ State.reset.Inv

/-- Every step keeps every register in `0 <= R < 2^WIDTH` (R13) and every instance's constants legal (R14, R115), and keeps the
selected instance in existence; the selection is the model's own (log entry 5). -/
def Obligations.StepKeepsInvariant : Prop :=
  ∀ s t : State, s.Inv → step s = .next t → t.Inv

/-- A step takes the oldest issued command and executes it: the decoded operation of a command word, the operation called, or
the turn to another instance; with nothing issued the state stays. -/
def Obligations.StepRunsTheIssuedCommand : Prop :=
  (∀ (s : State) (w : CmdWord) (rest : List Command) (e : Instance) (i : Instr),
    s.pending = .word w :: rest → s.current = some e → decode e.params.width w = .ok i →
    step s = exec i { s with pending := rest }) ∧
  (∀ (s : State) (i : Instr) (rest : List Command),
    s.pending = .call i :: rest → step s = exec i { s with pending := rest }) ∧
  (∀ (s : State) (k : Nat) (rest : List Command),
    s.pending = .select k :: rest → k < s.instances.length →
    step s = .next { s with pending := rest, sel := some k }) ∧
  (∀ s : State, s.pending = [] → step s = .next s)

/-- R14: no step changes the constants of an instance, and none removes an instance. -/
def Obligations.ConstantsOfAnInstanceNeverChange : Prop :=
  ∀ (s t : State) (k : Nat) (e : Instance), step s = .next t → s.instances[k]? = some e →
    ∃ r, t.instances[k]? = some { params := e.params, engine := { r := r } }

/-- On an existing instance every operation gives a next state, whatever its operands; with no instance selected, every
operation but CONSTRUCT stops with `noInstance` (R104, R121; log entry 13). -/
def Obligations.EveryOperationCompletes : Prop :=
  (∀ (s : State) (e : Instance) (i : Instr), s.current = some e → ∃ t, exec i s = .next t) ∧
  (∀ (s : State) (i : Instr), s.current = none → i.isConstruct = false → exec i s = .fault .noInstance) ∧
  (∀ (s : State) (i : Instr), i.isConstruct = true → ∃ t, exec i s = .next t)

/-- No step is stuck (R121): while an instance is selected, and no `select` of an instance that does not exist is pending first,
every step gives a next state, whatever words and operands were issued. -/
def Obligations.StepCompletesOnAnExistingInstance : Prop :=
  ∀ (s : State) (e : Instance), s.current = some e →
    (∀ k rest, s.pending = .select k :: rest → k < s.instances.length) → ∃ t, step s = .next t

/-! Encoding. -/

/-- Every well-formed operation that has a command word has one, of the length of its format, and decoding it gives the
operation back, at every width and with every operand the fields admit (R42 to R45, R47). -/
def Obligations.DecodeAfterEncodeIsIdentity : Prop :=
  ∀ (width : Nat) (i : Instr), i.encodable = true → i.wellFormed width = true →
    ∃ w, encode width i = some w ∧ decode width w = .ok i

/-- Each command word has one meaning: what decodes to an operation is the word the encoder gives for it. -/
def Obligations.EncodeAfterDecodeIsIdentity : Prop :=
  ∀ (width : Nat) (w : CmdWord) (i : Instr), decode width w = .ok i → encode width i = some w

/-- R45: the words the spec writes out decode to the operations they stand for. -/
def Obligations.SpecWordsDecodeToTheirOperations : Prop :=
  decode 16 ⟨3, 0b001#3⟩ = .ok .reset ∧
  decode 16 ⟨3, 0b100#3⟩ = .ok .final ∧
  decode 16 ⟨3, 0b101#3⟩ = .ok .value ∧
  decode 16 ⟨11, 0b00110001011#11⟩ = .ok (.byte 0x31) ∧
  decode 16 ⟨11, 0b00110001110#11⟩ = .ok (.refl8 0x31) ∧
  decode 16 ⟨19, 0x7FFFA#19⟩ = .ok (.load 0xFFFF) ∧
  decode 16 ⟨19, 0x76697#19⟩ = .ok (.reflw 0xECD2) ∧
  decode 3 ⟨6, 0b100010#6⟩ = .ok (.load 0x4) ∧
  decode 16 ⟨3, 0b000#3⟩ = .ok (.illegal ⟨3, 0b000#3⟩)

/-- R102: a word whose `op` field is 0, or whose length is not that of its format on this instance, raises IllegalCommand
(code 7), which records the word, and changes nothing. -/
def Obligations.IllegalWordsRaiseIllegalCommand : Prop :=
  ∀ (s : State) (w : CmdWord) (rest : List Command) (e : Instance),
    s.pending = .word w :: rest → s.current = some e →
    (w.bits.toNat % 8 = 0 ∨
      w.len ≠ (match w.bits.toNat % 8 with
        | 2 => e.params.width + 3
        | 7 => e.params.width + 3
        | 3 => 11
        | 6 => 11
        | _ => 3)) →
    step s = .next { s with pending := rest, response := .error (.illegalCommand w) } ∧
      (Error.illegalCommand w).code = 7

/-- R49: the operation of the reserved code raises IllegalCommand and changes nothing. -/
def Obligations.ReservedCodeRaisesIllegalCommand : Prop :=
  ∀ (s : State) (e : Instance) (w : CmdWord), s.current = some e →
    ∃ t, exec (.illegal w) s = .next t ∧ SameButResponse s t ∧ t.response = .error (.illegalCommand w)

/-! Reflection. -/

/-- R53, R54: the table has 256 entries, entry `b` is `reflect_byte(b)`, and bit `7 - i` of it is bit `i` of `b`. -/
def Obligations.TableHoldsReflectedBytes : Prop :=
  lut.length = 256 ∧
  ∀ b : Nat, b < 256 → lut[b]? = some (reflectByte b) ∧ reflectByte b < 256 ∧
    ∀ i : Nat, i ≤ 7 → (reflectByte b).testBit (7 - i) = b.testBit i

/-- REFL8 returns `LUT[d]`, which is `reflect_byte(d)` and reflects back to `d`; it writes no register (R55). For `d` outside
`0..255` it raises ByteRange with the value (R100); that the recorded index of a single operand is 0 is the model's choice
(log entry 16). -/
def Obligations.Refl8ReadsTheTable : Prop :=
  ∀ (s : State) (e : Instance) (d : Int), s.current = some e →
    (0 ≤ d → d ≤ 255 →
      ∃ t, exec (.refl8 d) s = .next t ∧ SameButResponse s t ∧ t.response = .value (lutRead d.toNat) ∧
        lutRead d.toNat = reflectByte d.toNat ∧ lutRead (lutRead d.toNat) = d.toNat) ∧
    (d < 0 ∨ 255 < d →
      ∃ t, exec (.refl8 d) s = .next t ∧ SameButResponse s t ∧ t.response = .error (.byteRange d 0))

/-- R57, R58: bit `n - 1 - i` of `reflect_bits(n, x)` is bit `i` of `x`, the result is below `2^n`, and width 0 gives 0. -/
def Obligations.ReflectBitsReversesTheBits : Prop :=
  (∀ n x : Nat, x < 2 ^ n →
    reflectBits n x < 2 ^ n ∧ ∀ i, i < n → (reflectBits n x).testBit (n - 1 - i) = x.testBit i) ∧
  ∀ x : Nat, reflectBits 0 x = 0

/-- R61: reflection is its own inverse at every width, agrees with the byte table at width 8, and distributes over XOR. -/
def Obligations.ReflectBitsIsAnInvolution : Prop :=
  (∀ n x : Nat, x < 2 ^ n → reflectBits n (reflectBits n x) = x) ∧
  (∀ b : Nat, b < 256 → reflectBits 8 b = reflectByte b) ∧
  (∀ n a b : Nat, a < 2 ^ n → b < 2 ^ n → reflectBits n (a ^^^ b) = reflectBits n a ^^^ reflectBits n b)

/-- R60: REFLW returns the reflection of its operand at the instance's width; an operand that does not fit raises ValueRange;
it writes no register. -/
def Obligations.ReflwReflectsAtTheInstanceWidth : Prop :=
  ∀ (s : State) (e : Instance) (v : Nat), s.current = some e →
    (v < 2 ^ e.params.width →
      ∃ t, exec (.reflw v) s = .next t ∧ SameButResponse s t ∧ t.response = .value (reflectBits e.params.width v)) ∧
    (2 ^ e.params.width ≤ v →
      ∃ t, exec (.reflw v) s = .next t ∧ SameButResponse s t ∧ t.response = .error (.valueRange v))

/-! Construction. -/

/-- CONSTRUCT makes the four tests of R63 in order and names the first that fails, with its code (R96 to R99); when none fails a
new instance with these constants and `R = INIT` exists. After a failure none is added. Every earlier instance stays in either
case. The model's choices: that the new instance stands last in the list and is the one the host issues to (log entry 5), and
how the host is handed it (log entry 6). -/
def Obligations.ConstructChecksThenCreates : Prop :=
  ∀ (s : State) (width : Int) (poly init : Nat) (refin refout : Bool) (xorout : Nat),
    ∃ t, exec (.construct width poly init refin refout xorout) s = .next t ∧ t.pending = s.pending ∧
      if width ≤ 0 then
        t.instances = s.instances ∧ t.response = .error (.configWidth width) ∧
          (Error.configWidth width).code = 1
      else if poly ≥ 2 ^ width.toNat then
        t.instances = s.instances ∧ t.response = .error (.configPolyRange poly) ∧
          (Error.configPolyRange poly).code = 2
      else if init ≥ 2 ^ width.toNat then
        t.instances = s.instances ∧ t.response = .error (.configInitRange init) ∧
          (Error.configInitRange init).code = 3
      else if xorout ≥ 2 ^ width.toNat then
        t.instances = s.instances ∧ t.response = .error (.configXorRange xorout) ∧
          (Error.configXorRange xorout).code = 4
      else
        t.instances = s.instances ++ [{ params := ⟨width.toNat, poly, init, refin, refout, xorout⟩, engine := { r := init } }] ∧
          t.response = .created s.instances.length ∧
          t.current = some { params := ⟨width.toNat, poly, init, refin, refout, xorout⟩, engine := { r := init } }

/-! The engine. -/

/-- R21: the derived constants as powers of two, the working width as `max(WIDTH, 8)`, and the pre-shifted polynomial below
`2^WW` with its low `S` bits zero. -/
def Obligations.DerivedConstantsHaveTheirValues : Prop :=
  ∀ p : Params, p.Legal →
    highbit p = 2 ^ (p.width - 1) ∧ mask p = 2 ^ p.width - 1 ∧
    enlarge p = 8 - p.width ∧ workWidth p = max p.width 8 ∧ workWidth p = p.width + enlarge p ∧
    highbitW p = 2 ^ (workWidth p - 1) ∧ maskW p = 2 ^ workWidth p - 1 ∧
    (p.width < 8 → highbitW p = 0x80 ∧ maskW p = 0xFF) ∧
    polyW p = p.poly * 2 ^ enlarge p ∧ polyW p < 2 ^ workWidth p ∧ polyW p % 2 ^ enlarge p = 0

/-- R64: the fold XORs the byte into the top of the working register and then makes exactly 8 iterations, each testing bit
`WW - 1` before the shift and keeping `WW` bits. -/
def Obligations.FoldIsEightShiftIterations : Prop :=
  ∀ p : Params, p.Legal → ∀ t e : Nat, t < 2 ^ workWidth p → e < 256 →
    (foldStep p t =
      if t.testBit (workWidth p - 1) then ((2 * t) ^^^ (p.poly * 2 ^ (8 - p.width))) % 2 ^ max p.width 8
      else (2 * t) % 2 ^ max p.width 8) ∧
    fold p t e = (foldStep p)^[8] (t ^^^ (e * 2 ^ (max p.width 8 - 8))) ∧
    fold p t e < 2 ^ max p.width 8

/-- BYTE enlarges, folds the byte (its table reflection if `REFIN`), and shrinks back; nothing else changes (R65). For `d` outside
`0..255` it raises ByteRange with the value and writes nothing (R100); that the recorded index of a single operand is 0 is the
model's choice (log entry 16). -/
def Obligations.ByteFoldsOneByteIntoR : Prop :=
  ∀ (s : State) (e : Instance) (d : Int), s.current = some e →
    (0 ≤ d → d ≤ 255 →
      ∃ t, exec (.byte d) s = .next t ∧ t.response = .done ∧
        WroteR e
          ((fold e.params (e.engine.r <<< enlarge e.params) (if e.params.refin then lutRead d.toNat else d.toNat)) >>>
            enlarge e.params) s t) ∧
    (d < 0 ∨ 255 < d →
      ∃ t, exec (.byte d) s = .next t ∧ SameButResponse s t ∧ t.response = .error (.byteRange d 0))

/-- R66: PROCESS enlarges once, folds the bytes in order, and shrinks once; it hands back no data; PROCESS of one byte is
BYTE. -/
def Obligations.ProcessFoldsTheSequence : Prop :=
  (∀ (s : State) (e : Instance) (data : List Nat), s.current = some e → (∀ d ∈ data, d < 256) →
    ∃ t, exec (.process (data.map (fun d => (d : Int)))) s = .next t ∧ t.response = .done ∧
      WroteR e
        ((data.foldl (fun x d => fold e.params x (if e.params.refin then lutRead d else d)) (e.engine.r <<< enlarge e.params)) >>>
          enlarge e.params) s t) ∧
  ∀ (s : State) (d : Int), exec (.process [d]) s = exec (.byte d) s

/-- A byte outside `0..255` anywhere in the operand refuses the whole operation, recording the first offending value and its
index, with `R` unchanged (R100, R103). For COMPUTE, whose `iv` is tested first, when its `iv` is in range; that `R` is then as
before the whole COMPUTE is log entry 15. That the index BYTE and REFL8 record is 0 is the model's choice (log entry 16). -/
def Obligations.ByteRangeRefusesTheWholeOperand : Prop :=
  ∀ (s : State) (e : Instance) (good : List Int) (d : Int) (rest : List Int) (iv : Option Nat), s.current = some e →
    (∀ x ∈ good, 0 ≤ x ∧ x ≤ 255) → (d < 0 ∨ 255 < d) → (∀ v, iv = some v → v < 2 ^ e.params.width) →
    (∃ t, exec (.process (good ++ d :: rest)) s = .next t ∧ SameButResponse s t ∧
      t.response = .error (.byteRange d good.length)) ∧
    (∃ t, exec (.compute (good ++ d :: rest) iv) s = .next t ∧ SameButResponse s t ∧
      t.response = .error (.byteRange d good.length)) ∧
    (∃ t, exec (.byte d) s = .next t ∧ SameButResponse s t ∧ t.response = .error (.byteRange d 0)) ∧
    (∃ t, exec (.refl8 d) s = .next t ∧ SameButResponse s t ∧ t.response = .error (.byteRange d 0)) ∧
    (Error.byteRange d 0).code = 5

/-- R101: LOAD, REFLW and COMPUTE with a value that does not fit in `WIDTH` bits raise ValueRange, record the operand and leave
`R` unchanged; COMPUTE does so before any byte is looked at (R103). -/
def Obligations.ValueRangeRefusesTheOperand : Prop :=
  ∀ (s : State) (e : Instance) (v : Nat) (data : List Int), s.current = some e → 2 ^ e.params.width ≤ v →
    (∃ t, exec (.load v) s = .next t ∧ SameButResponse s t ∧ t.response = .error (.valueRange v)) ∧
    (∃ t, exec (.reflw v) s = .next t ∧ SameButResponse s t ∧ t.response = .error (.valueRange v)) ∧
    (∃ t, exec (.compute data (some v)) s = .next t ∧ SameButResponse s t ∧ t.response = .error (.valueRange v)) ∧
    (Error.valueRange v).code = 6

/-- R67: FINAL returns a copy of `R`, reflected over `WIDTH` bits if `REFOUT` and then XORed with `XOROUT`; it writes nothing,
and on a legal instance the result is below `2^WIDTH`. -/
def Obligations.FinalReflectsThenXors : Prop :=
  ∀ (s : State) (e : Instance), s.current = some e →
    ∃ (t : State) (c : Nat), exec .final s = .next t ∧ SameButResponse s t ∧ t.response = .value c ∧
      c = (if e.params.refout then reflectBits e.params.width e.engine.r else e.engine.r) ^^^ e.params.xorout ∧
      (e.Ok → c < 2 ^ e.params.width)

/-- R68: VALUE returns the raw register and writes nothing. -/
def Obligations.ValuePeeksAtR : Prop :=
  ∀ (s : State) (e : Instance), s.current = some e →
    ∃ t, exec .value s = .next t ∧ SameButResponse s t ∧ t.response = .value e.engine.r

/-- R69: RESET writes `INIT` to `R`, after which the instance is the one a CONSTRUCT with the same constants makes. -/
def Obligations.ResetWritesInit : Prop :=
  ∀ (s : State) (e : Instance), s.current = some e →
    ∃ t, exec .reset s = .next t ∧ t.response = .done ∧ WroteR e e.params.init s t ∧
      t.current = (State.afterReset e.params).current

/-- R70: LOAD writes its operand to `R` and leaves `INIT` alone, so that a later RESET still writes `INIT`; a value that does not
fit raises ValueRange and writes nothing. -/
def Obligations.LoadWritesItsOperand : Prop :=
  ∀ (s : State) (e : Instance) (v : Nat), s.current = some e →
    (v < 2 ^ e.params.width →
      ∃ t u, exec (.load v) s = .next t ∧ t.response = .done ∧ WroteR e v s t ∧
        exec .reset t = .next u ∧ WroteR e e.params.init s u) ∧
    (2 ^ e.params.width ≤ v →
      ∃ t, exec (.load v) s = .next t ∧ SameButResponse s t ∧ t.response = .error (.valueRange v))

/-- R72: masking once after the eighth iteration, with unbounded integers in between, gives the same working register as masking
after each. -/
def Obligations.MaskingOnceEqualsMaskingEachIteration : Prop :=
  ∀ p : Params, p.Legal → ∀ t : Nat, t < 2 ^ workWidth p →
    (foldStep p)^[8] t = (foldStepUnmasked p)^[8] t % 2 ^ workWidth p

/-- R74: the low `S` bits of the working register are zero after every fold, so shrinking loses nothing, and shrinking after
every byte or once after all bytes leaves the same `R`. -/
def Obligations.FoldLeavesLowBitsZero : Prop :=
  ∀ p : Params, p.Legal →
    (∀ t e : Nat, fold p t e % 2 ^ enlarge p = 0 ∧ (fold p t e >>> enlarge p) <<< enlarge p = fold p t e) ∧
    ∀ (r : Nat) (data : List Nat), processR p r data = data.foldl (byteR p) r

/-- The polynomial reading of 41_crc_engine.md section 5: over GF(2), with `G = x^WIDTH + POLY`, BYTE replaces `R` by the
remainder of `R * x^8 + e * x^WIDTH` modulo `G`, at every width (for `WIDTH >= 8` this is `(R + e * x^(WIDTH-8)) * x^8`). The spec
marks the formula as general knowledge and gives it for `WIDTH >= 8`. -/
def Obligations.ByteIsPolynomialRemainder : Prop :=
  ∀ (p : Params) (r d : Nat), p.Legal → r < 2 ^ p.width → d < 256 →
    let P : Nat → Polynomial (ZMod 2) := fun v =>
      ∑ i ∈ Finset.range (max p.width 8), if v.testBit i then Polynomial.X ^ i else 0
    byteR p r d < 2 ^ p.width ∧
    P (byteR p r d) =
      (P r * Polynomial.X ^ 8 + P (inputByte p d) * Polynomial.X ^ p.width) %ₘ (Polynomial.X ^ p.width + P p.poly)

/-- R31: at every width BYTE is the same as feeding the byte, reflected first if `REFIN`, bit by bit from bit 7 down to bit 0 into a
shift register of `WIDTH` bits. -/
def Obligations.ByteIsBitSerialMsbFirst : Prop :=
  ∀ (p : Params) (r d : Nat), p.Legal → r < 2 ^ p.width → d < 256 →
    byteR p r d = serialByte p r (if p.refin then reflectByte d else d)

/-- R78: BYTE is linear over GF(2) in the register and the byte together. -/
def Obligations.ByteIsLinear : Prop :=
  ∀ (p : Params) (r1 r2 d1 d2 : Nat), p.Legal → r1 < 2 ^ p.width → r2 < 2 ^ p.width → d1 < 256 → d2 < 256 →
    byteR p (r1 ^^^ r2) (d1 ^^^ d2) = byteR p r1 d1 ^^^ byteR p r2 d2

/-- For widths 8, 16 and 32 the fixed-width engine, without enlarge and shrink, and the general engine agree on every input, as
R87 asks. The fast path compared is the model's own rendering of it (log entry 18). -/
def Obligations.FastPathsAgreeWithTheGeneralEngine : Prop :=
  ∀ (p : Params) (r : Nat) (data : List Nat), p.Legal → p.width = 8 ∨ p.width = 16 ∨ p.width = 32 →
    r < 2 ^ p.width → (∀ d ∈ data, d < 256) →
    (fastProcess p (BitVec.ofNat p.width r) data).toNat = processR p r data

/-! Sequences of operations. -/

/-- R75: feeding a sequence in chunks, however split, leaves the same registers as feeding it whole, and as feeding it byte by
byte. -/
def Obligations.ChunkedFeedingEqualsOneFeeding : Prop :=
  ∀ (s : State) (e : Instance) (chunks : List (List Int)), s.current = some e → s.Inv →
    (∀ c ∈ chunks, ∀ d ∈ c, 0 ≤ d ∧ d ≤ 255) →
    ∃ (u : Run) (t : State), runOps (chunks.map Instr.process) s = .next u ∧ u.stopped = none ∧ u.returned = [] ∧
      exec (.process chunks.flatten) s = .next t ∧ u.final.instances = t.instances ∧ u.final.sel = t.sel ∧
      u.final.pending = t.pending ∧
      ∃ v : Run, runOps (chunks.flatten.map Instr.byte) s = .next v ∧ v.stopped = none ∧ v.returned = [] ∧
        v.final.instances = t.instances

/-- R85: PROCESS leaves the same registers as the BYTE operations it expands to. -/
def Obligations.ProcessEqualsItsByteExpansion : Prop :=
  ∀ (s : State) (e : Instance) (data : List Int), s.current = some e → s.Inv → (∀ d ∈ data, 0 ≤ d ∧ d ≤ 255) →
    ∃ (u : Run) (t : State), runOps (data.map Instr.byte) s = .next u ∧ u.stopped = none ∧ u.returned = [] ∧
      exec (.process data) s = .next t ∧ u.final.instances = t.instances ∧ u.final.sel = t.sel ∧
      u.final.pending = t.pending

/-- R77: PROCESS of the empty sequence leaves `R` unchanged, and COMPUTE of it returns the FINAL of `INIT`. -/
def Obligations.EmptyInputLeavesR : Prop :=
  ∀ (s : State) (e : Instance), s.current = some e →
    (∃ t, exec (.process []) s = .next t ∧ t.response = .done ∧ WroteR e e.engine.r s t) ∧
    ∃ t, exec (.compute [] none) s = .next t ∧
      t.response =
        .value ((if e.params.refout then reflectBits e.params.width e.params.init else e.params.init) ^^^ e.params.xorout)

/-- R86: COMPUTE starts the register from `INIT`, or from `iv` when it is given, processes the data, returns the FINAL value, and
leaves the raw value in `R`. -/
def Obligations.ComputeStartsProcessesAndFinalizes : Prop :=
  ∀ (s : State) (e : Instance) (data : List Nat) (iv : Option Nat), s.current = some e → (∀ d ∈ data, d < 256) →
    (∀ v, iv = some v → v < 2 ^ e.params.width) →
    ∃ (t : State) (r : Nat), exec (.compute (data.map (fun d => (d : Int))) iv) s = .next t ∧
      r = processR e.params (iv.getD e.params.init) data ∧
      t.response = .value ((if e.params.refout then reflectBits e.params.width r else r) ^^^ e.params.xorout) ∧
      WroteR e r s t

/-- R86: on operands in range, COMPUTE hands back the one value, and leaves the registers, of the operations it expands to: RESET
or LOAD, the BYTEs, FINAL. -/
def Obligations.ComputeEqualsItsExpansion : Prop :=
  ∀ (s : State) (e : Instance) (data : List Int) (iv : Option Nat), s.current = some e → s.Inv →
    (∀ d ∈ data, 0 ≤ d ∧ d ≤ 255) → (∀ v, iv = some v → v < 2 ^ e.params.width) →
    ∃ (u : Run) (t : State), runOps (expandCompute data iv) s = .next u ∧ exec (.compute data iv) s = .next t ∧
      u.stopped = none ∧ u.returned = [t.response] ∧ u.final.instances = t.instances ∧ u.final.sel = t.sel ∧
      u.final.pending = t.pending

/-- R76: FINAL twice in a row gives the same value and the same state, and no later operation can tell that it was issued; the
same holds of VALUE, REFL8 and REFLW. -/
def Obligations.ReadingTwiceGivesTheSame : Prop :=
  ∀ (s t : State) (d : Int) (v : Nat) (i : Instr),
    (i = .final ∨ i = .value ∨ i = .refl8 d ∨ i = .reflw v) → exec i s = .next t →
    exec i t = .next t ∧ ∀ j : Instr, exec j t = exec j s

/-- R79: the check values the source gives for "123456789". The parameters are the catalogue's, which the spec marks as general
knowledge (93_implementation_defined.md G1), CRC-82/DARC's check value among them. -/
def Obligations.KnownCheckValues : Prop :=
  (∃ t, exec (.compute digits19 none) (State.afterReset ⟨32, 0x04C11DB7, 0xFFFFFFFF, true, true, 0xFFFFFFFF⟩) = .next t ∧
    t.response = .value 0xCBF43926) ∧
  (∃ t, exec (.compute digits19 none) (State.afterReset ⟨16, 0x1021, 0, false, false, 0⟩) = .next t ∧
    t.response = .value 0x31C3) ∧
  (∃ t, exec (.compute digits19 none) (State.afterReset ⟨8, 0x07, 0, false, false, 0⟩) = .next t ∧
    t.response = .value 0xF4) ∧
  (∃ t, exec (.compute digits19 none) (State.afterReset ⟨3, 0x3, 0x7, true, true, 0⟩) = .next t ∧
    t.response = .value 0x6) ∧
  (∃ t, exec (.compute digits19 none) (State.afterReset ⟨82, 0x0308C0111011401440411, 0, true, true, 0⟩) = .next t ∧
    t.response = .value 0x09EA83F625023801FD612)

/-- D4, R121: a list of operations that are well formed on the instance, none of them CONSTRUCT or of the reserved code, runs to
its end. -/
def Obligations.WellFormedListsRunToTheEnd : Prop :=
  ∀ (s : State) (e : Instance) (is : List Instr), s.current = some e →
    (∀ i ∈ is, i.wellFormed e.params.width = true ∧ i.isConstruct = false ∧ i.isIllegal = false) →
    ∃ (u : Run) (r : Nat), runOps is s = .next u ∧ u.stopped = none ∧
      u.final.current = some { params := e.params, engine := { r := r } } ∧ u.final.sel = s.sel ∧ u.final.pending = s.pending

/-- D4, R121: a list stops at its first refused operation, with the state that operation met, but for what was handed back. -/
def Obligations.ListsStopAtTheFirstRefusal : Prop :=
  ∀ (s : State) (e : Instance) (is : List Instr) (i : Instr) (rest : List Instr), s.current = some e →
    (∀ j ∈ is, j.wellFormed e.params.width = true ∧ j.isConstruct = false ∧ j.isIllegal = false) →
    i.isConstruct = false → (i.wellFormed e.params.width = false ∨ i.isIllegal = true) →
    ∃ (u v : Run) (err : Error), runOps is s = .next u ∧ runOps (is ++ i :: rest) s = .next v ∧
      v.stopped = some err ∧ v.returned = u.returned ∧ SameButResponse u.final v.final

/-! Serialised results. -/

/-- R88: FINAL_BYTES returns `ceil(WIDTH / 8)` bytes of the FINAL value, byte `k` of the little-endian order being its bits
`8k+7..8k`; big-endian is the reverse; it writes nothing. -/
def Obligations.FinalBytesSerialisesTheResult : Prop :=
  ∀ (s : State) (e : Instance), s.current = some e →
    ∃ (t u : State) (bs : List Nat), exec (.finalBytes .little) s = .next t ∧ exec (.finalBytes .big) s = .next u ∧
      SameButResponse s t ∧ SameButResponse s u ∧ t.response = .bytes bs ∧ u.response = .bytes bs.reverse ∧
      bs.length = (e.params.width + 7) / 8 ∧
      ∀ k : Nat, k < bs.length → bs[k]? = some (finalValue e.params e.engine.r / 2 ^ (8 * k) % 256)

/-- The bytes of FINAL_BYTES hold the whole FINAL value: read little-endian they give it back (R88). -/
def Obligations.SerialisedBytesRebuildTheResult : Prop :=
  ∀ e : Instance, e.Ok →
    (serialise e.params .little (finalValue e.params e.engine.r)).foldr (fun b acc => b + 256 * acc) 0 =
      finalValue e.params e.engine.r ∧
    ∀ b ∈ serialise e.params .little (finalValue e.params e.engine.r), b < 256

/-- R89: FINAL_HEX returns the bytes of FINAL_BYTES, each as two hexadecimal digits, in sequence order, after what HEX_STYLE puts
first; digit case and prefix are HEX_STYLE's, whatever it is; it writes nothing. -/
def Obligations.FinalHexWritesTwoDigitsPerByte : Prop :=
  ∀ (s : State) (e : Instance) (order : ByteOrder), s.current = some e →
    ∃ (t u : State) (bs : List Nat) (cs : List Char), exec (.finalBytes order) s = .next t ∧ t.response = .bytes bs ∧
      exec (.finalHex order) s = .next u ∧ SameButResponse s u ∧ u.response = .text (Config.hexStyle.lead ++ cs) ∧
      cs.length = 2 * bs.length ∧
      ∀ (k : Nat) (b : Nat), bs[k]? = some b →
        cs[2 * k]? = (hexChars Config.hexStyle.upper)[b / 16]? ∧
        cs[2 * k + 1]? = (hexChars Config.hexStyle.upper)[b % 16]?

/-! Errors, frames, and several instances. -/

/-- The operations that the table of R12 does not list as writers, FINAL, VALUE, REFL8, REFLW, and FINAL_BYTES, FINAL_HEX (R88, R89)
and the reserved code (R102) leave every register, every constant, the selection and what is pending as they were. -/
def Obligations.ReadersWriteNothing : Prop :=
  ∀ (s t : State) (i : Instr), i.writesR = false → i.isConstruct = false → exec i s = .next t → SameButResponse s t

/-- The writers change `R` of the selected instance only: its constants, every other instance, the selection and what is pending
stay (R12, R14, R108). -/
def Obligations.WritersTouchOnlyR : Prop :=
  ∀ (s t : State) (e : Instance) (i : Instr), s.current = some e → i.writesR = true → exec i s = .next t →
    ∃ r, WroteR e r s t

/-- R104: whichever operation raises whichever error, every register and every constant and what is pending stay; the selection
stays too, but that a failed CONSTRUCT leaves no instance selected, and then no operation but CONSTRUCT can be issued
(log entry 4). -/
def Obligations.ErrorsHaveNoEffect : Prop :=
  ∀ (s t : State) (i : Instr) (err : Error), exec i s = .next t → t.response = .error err →
    t.instances = s.instances ∧ t.pending = s.pending ∧
    (i.isConstruct = false → t.sel = s.sel) ∧
    (i.isConstruct = true → ∀ j : Instr, j.isConstruct = false → exec j t = .fault .noInstance)

/-- On an existing instance an operation raises an error exactly when an operand is out of its range or the operation is the
reserved code (R47, R100 to R103, R105). -/
def Obligations.ErrorsComeExactlyFromIllFormedOperations : Prop :=
  ∀ (s : State) (e : Instance) (i : Instr), s.current = some e →
    ((∃ t err, exec i s = .next t ∧ t.response = .error err) ↔
      (i.wellFormed e.params.width = false ∨ i.isIllegal = true))

/-- Nothing is sticky (R26, R104): no operation depends on what an earlier one handed back, an error included. -/
def Obligations.NoOperationReadsTheResponse : Prop :=
  ∀ (s : State) (i : Instr) (x : Response), exec i { s with response := x } = exec i s

/-- What an operation returns fits: on a legal instance an integer result is below `2^WIDTH`, that of REFL8 below `2^8` (R48, R57,
R67). -/
def Obligations.ResultsFitTheirWidths : Prop :=
  ∀ (s t : State) (e : Instance) (i : Instr) (v : Nat), s.current = some e → s.Inv → exec i s = .next t →
    t.response = .value v →
    ((∀ d, i ≠ .refl8 d) → v < 2 ^ e.params.width) ∧ ∀ d, i = .refl8 d → v < 2 ^ 8

/-- R108: operations on two different instances, in either order, leave the same registers everywhere and return the same. -/
def Obligations.OperationsOnDifferentInstancesCommute : Prop :=
  ∀ (s : State) (a b : Nat) (ea eb : Instance) (i j : Instr), a ≠ b → s.instances[a]? = some ea →
    s.instances[b]? = some eb → i.isConstruct = false → j.isConstruct = false →
    ∃ t1 t2 u1 u2, exec i { s with sel := some a } = .next t1 ∧ exec j { t1 with sel := some b } = .next t2 ∧
      exec j { s with sel := some b } = .next u1 ∧ exec i { u1 with sel := some a } = .next u2 ∧
      t2.instances = u2.instances ∧ t1.response = u2.response ∧ t2.response = u1.response

/-- An operation on an instance depends on that instance alone (R108, R116): two machines whose selected instances agree, and
whose other instances may differ in any way, return the same and leave their selected instances equal. -/
def Obligations.AnOperationDependsOnItsInstanceAlone : Prop :=
  ∀ (s1 s2 : State) (e : Instance) (i : Instr), s1.current = some e → s2.current = some e → i.isConstruct = false →
    ∃ t1 t2, exec i s1 = .next t1 ∧ exec i s2 = .next t2 ∧ t1.response = t2.response ∧ t1.current = t2.current

/-- R113: an instance after RESET cannot be told from a fresh one with the same constants: every list of operations returns the
same on both and leaves the same instance. LOAD does not alter what the next RESET writes. -/
def Obligations.ResetInstanceActsAsAFreshOne : Prop :=
  (∀ (s : State) (e : Instance) (is : List Instr), s.current = some e → (∀ i ∈ is, i.isConstruct = false) →
    ∃ (t : State) (u v : Run), exec .reset s = .next t ∧ runOps is t = .next u ∧
      runOps is (State.afterReset e.params) = .next v ∧ u.returned = v.returned ∧ u.stopped = v.stopped ∧
      u.final.current = v.final.current) ∧
  ∀ (s : State) (e : Instance) (v : Nat), s.current = some e → v < 2 ^ e.params.width →
    ∃ t u, exec (.load v) s = .next t ∧ exec .reset t = .next u ∧
      u.current = some { params := e.params, engine := { r := e.params.init } }

/-- What R70 says of a computation in progress: VALUE on one instance and LOAD of what it returned on another with the same
constants transfers it; every list of operations then returns the same on both. -/
def Obligations.ValueThenLoadTransfersAComputation : Prop :=
  ∀ (s1 s2 : State) (e1 e2 : Instance) (is : List Instr), s1.current = some e1 → s2.current = some e2 → s1.Inv →
    e1.params = e2.params → (∀ i ∈ is, i.isConstruct = false) →
    ∃ (x : Nat) (t1 t2 : State) (u v : Run), exec .value s1 = .next t1 ∧ t1.response = .value x ∧
      exec (.load x) s2 = .next t2 ∧ runOps is t1 = .next u ∧ runOps is t2 = .next v ∧ u.returned = v.returned ∧
      u.stopped = v.stopped ∧ u.final.current = v.final.current

/-- The constants are an argument of the step function and the state it changes is `R` alone (R12, R14): an operation, or a
command word, issued to an instance does to it, and hands back, what the engine's own step function does, given the instance's
constants as its argument. CONSTRUCT is no step of an engine (R46). That the machine lists each engine beside its constants is
the model's choice (log entry 1), and so is the list of what is issued (log entry 7). -/
def Obligations.TheStepTakesTheConstantsAsAnArgument : Prop :=
  (∀ (s : State) (e : Instance) (i : Instr), s.current = some e → i.isConstruct = false →
    ∃ (m : Engine) (x : Response) (t : State), engineStep e.params i e.engine = some (m, x) ∧ exec i s = .next t ∧
      t.response = x ∧ WroteR e m.r s t) ∧
  (∀ (s : State) (e : Instance) (w : CmdWord) (rest : List Command),
    s.pending = .word w :: rest → s.current = some e →
    ∃ (m : Engine) (x : Response) (t : State), engineStepWord e.params w e.engine = some (m, x) ∧ step s = .next t ∧
      t.response = x ∧ WroteR e m.r { s with pending := rest } t) ∧
  ∀ (cfg : Params) (i : Instr) (m : Engine), i.isConstruct = true → engineStep cfg i m = none

/-- R14's machine has its constants as an argument of its step function and not in its state; CONSTRUCT makes one, and the host's
machine, whose step has no such argument, runs it (log entry 1). A successful CONSTRUCT leaves the host's machine showing the
configured machine of its constants, in its reset state but for what the host has issued, as the selected instance. A step of the host's machine that shows a
configured machine shows the same machine, with the same constants, one step on, and leaves every other instance alone. -/
def Obligations.TheHostsMachineRunsTheConfiguredMachine : Prop :=
  (∀ (s : State) (width : Int) (poly init : Nat) (refin refout : Bool) (xorout : Nat) (cfg : Configuration),
    configure width poly init refin refout xorout = .ok cfg →
    ∃ t, exec (.construct width poly init refin refout xorout) s = .next t ∧
      ∀ cs : List BlockCommand, s.pending = cs.map BlockCommand.toCommand →
        Shows { t with response := .idle } cfg.1 { Block.fresh cfg.1 with pending := cs }) ∧
  ∀ (s : State) (cfg : Configuration) (b b' : Block), Shows s cfg.1 b → (configuredCore cfg).step b = .next b' →
    ∃ t, step s = .next t ∧ Shows t cfg.1 b' ∧ t.sel = s.sel ∧
      ∀ k, s.sel ≠ some k → t.instances[k]? = s.instances[k]?
end

