-- ==== Sys2Proof/Laws/State.lean ====
section
/-! SUPPORT. One lemma per field per update of the state, and what reading the selected instance sees of each update. -/

namespace Sys2Proof.Machine

@[simp] theorem State.current_of_response (s : State) (x : Response) :
    State.current { s with response := x } = s.current := rfl

@[simp] theorem State.current_of_pending (s : State) (l : List Command) :
    State.current { s with pending := l } = s.current := rfl

@[simp] theorem State.current_of_sel_none (s : State) : State.current { s with sel := none } = none := rfl

@[simp] theorem State.current_of_sel_some (s : State) (k : Nat) :
    State.current { s with sel := some k } = s.instances[k]? := rfl

@[simp] theorem Engine.fresh_eq (cfg : Params) : Engine.fresh cfg = { r := cfg.init } := rfl

/-- What it is for an instance to be selected. -/
theorem State.current_eq_some {s : State} {e : Instance} :
    s.current = some e ↔ ∃ k, s.sel = some k ∧ s.instances[k]? = some e := by
  unfold State.current
  cases h : s.sel <;> simp

theorem State.Inv.current_ok {s : State} (h : s.Inv) {e : Instance} (he : s.current = some e) : e.Ok := by
  obtain ⟨k, -, hk⟩ := State.current_eq_some.1 he
  exact h.1 e (List.mem_of_getElem? hk)

@[simp] theorem writeR_sel (v : Nat) (s : State) : (writeR v s).sel = s.sel := by
  unfold writeR; split <;> simp_all

@[simp] theorem writeR_pending (v : Nat) (s : State) : (writeR v s).pending = s.pending := by
  unfold writeR; split <;> rfl

@[simp] theorem writeR_response (v : Nat) (s : State) : (writeR v s).response = s.response := by
  unfold writeR; split <;> rfl

@[simp] theorem writeR_length (v : Nat) (s : State) : (writeR v s).instances.length = s.instances.length := by
  unfold writeR; split <;> simp

/-- Every instance but the selected one stays. -/
theorem writeR_other {s : State} {k : Nat} (v : Nat) (h : s.sel ≠ some k) :
    (writeR v s).instances[k]? = s.instances[k]? := by
  unfold writeR
  split
  · rename_i j hj
    have : j ≠ k := fun e => h (e ▸ hj)
    simp [this]
  · rfl

/-- The selected instance has the written register and the constants it had. -/
theorem writeR_current {s : State} {e : Instance} (v : Nat) (h : s.current = some e) :
    (writeR v s).current = some { params := e.params, engine := { r := v } } := by
  obtain ⟨k, hs, hk⟩ := State.current_eq_some.1 h
  simp [writeR, hs, State.current, hk]

/-- Every instance after a write is one that was there, with its constants, and with the written value if it is selected. -/
theorem writeR_getElem? (s : State) (v : Nat) (k : Nat) :
    (writeR v s).instances[k]? =
      (s.instances[k]?).map fun e =>
        { params := e.params, engine := { r := if s.sel = some k then v else e.engine.r } } := by
  unfold writeR
  split
  · rename_i j hj
    by_cases h : j = k
    · subst h; simp [hj]
    · simp [h, hj]
  · rename_i hj
    simp [hj]

/-- Writing what was written before a write leaves only the last one. -/
@[simp] theorem writeR_writeR (v w : Nat) (s : State) : writeR v (writeR w s) = writeR v s := by
  cases s with
  | mk is sel p r =>
    cases sel with
    | none => rfl
    | some k =>
      simp only [writeR, State.mk.injEq, and_true]
      apply List.ext_getElem?
      intro j
      simp only [List.getElem?_modify]
      by_cases h : k = j <;> simp [h, Function.comp_def]

@[simp] theorem writeR_of_response (s : State) (v : Nat) (x : Response) :
    writeR v { s with response := x } = { writeR v s with response := x } := by
  cases s with
  | mk is sel p r => cases sel <;> rfl

/-- Writing the value the register has changes nothing. -/
theorem writeR_self {s : State} {e : Instance} (h : s.current = some e) : writeR e.engine.r s = s := by
  obtain ⟨k, hs, hk⟩ := State.current_eq_some.1 h
  cases s with
  | mk is sel p r =>
    simp only at hs hk
    subst hs
    simp only [writeR, State.mk.injEq, and_true]
    apply List.ext_getElem?
    intro j
    simp only [List.getElem?_modify]
    by_cases hj : k = j
    · subst hj; simp [hk]
    · simp [hj]

theorem wroteR_writeR {s : State} {e : Instance} (v : Nat) (x : Response) (h : s.current = some e) :
    WroteR e v s { writeR v s with response := x } :=
  ⟨writeR_current v h, by simp, by simp, by simp, fun _ hk => writeR_other v hk⟩

theorem sameButResponse_response (s : State) (x : Response) : SameButResponse s { s with response := x } :=
  ⟨rfl, rfl, rfl⟩

end Sys2Proof.Machine
end

