-- ==== Sys2Proof/Laws/Ops.lean ====
section
/-! SUPPORT. What each shared operation can do, said once: the operand checks, running on the selected instance, answering,
and the results of every operation on an existing instance. -/

namespace Sys2Proof.Machine

theorem onEngine_some {s : State} {e : Instance} (f : Params → Engine → Effect) (h : s.current = some e) :
    onEngine s f = .next ((f e.params e.engine).apply s) := by simp [onEngine, h]

theorem onEngine_none {s : State} (f : Params → Engine → Effect) (h : s.current = none) :
    onEngine s f = .fault .noInstance := by simp [onEngine, h]

@[simp] theorem refuse_eq (e : Error) : refuse e = .keep (.error e) := rfl

@[simp] theorem raise_eq (e : Error) (s : State) : raise e s = .next { s with response := .error e } := rfl

theorem byteOk_iff {d : Int} : byteOk d = true ↔ 0 ≤ d ∧ d ≤ 255 := by simp [byteOk]

theorem byteOk_eq_false {d : Int} : byteOk d = false ↔ d < 0 ∨ 255 < d := by
  simp only [byteOk, decide_eq_false_iff_not]; omega

theorem valueOk_iff {n : Nat} {v : Nat} : valueOk n v = true ↔ v < 2 ^ n := by simp [valueOk]

theorem valueOk_eq_false {n : Nat} {v : Nat} : valueOk n v = false ↔ 2 ^ n ≤ v := by simp [valueOk]

theorem checkByte_ok {d : Int} (k : Nat) (h : byteOk d = true) : checkByte d k = .ok d.toNat := by simp [checkByte, h]

theorem checkByte_bad {d : Int} (k : Nat) (h : byteOk d = false) : checkByte d k = .error (.byteRange d k) := by
  simp [checkByte, h]

theorem checkValue_ok {p : Params} {v : Nat} (h : v < 2 ^ p.width) : checkValue p v = .ok v := by
  simp [checkValue, valueOk, h]

theorem checkValue_bad {p : Params} {v : Nat} (h : 2 ^ p.width ≤ v) : checkValue p v = .error (.valueRange v) := by
  simp [checkValue, valueOk, Nat.not_lt.2 h]

theorem checkBytesFrom_ok {data : List Int} (h : ∀ d ∈ data, byteOk d = true) (k : Nat) :
    checkBytesFrom k data = .ok (data.map Int.toNat) := by
  induction data generalizing k with
  | nil => rfl
  | cons d ds ih =>
    simp only [List.mem_cons, forall_eq_or_imp] at h
    simp [checkBytesFrom, checkByte_ok k h.1, ih h.2]

theorem checkBytesFrom_bad {good : List Int} {d : Int} (rest : List Int) (hg : ∀ x ∈ good, byteOk x = true)
    (hd : byteOk d = false) (k : Nat) :
    checkBytesFrom k (good ++ d :: rest) = .error (.byteRange d (k + good.length)) := by
  induction good generalizing k with
  | nil => simp [checkBytesFrom, checkByte_bad k hd]
  | cons g gs ih =>
    simp only [List.mem_cons, forall_eq_or_imp] at hg
    simp only [List.cons_append, checkBytesFrom, checkByte_ok k hg.1, ih hg.2, List.length_cons]
    congr 2
    omega

theorem checkBytes_ok {data : List Int} (h : ∀ d ∈ data, byteOk d = true) :
    checkBytes data = .ok (data.map Int.toNat) := checkBytesFrom_ok h 0

theorem checkBytes_bad {good : List Int} {d : Int} (rest : List Int) (hg : ∀ x ∈ good, byteOk x = true)
    (hd : byteOk d = false) : checkBytes (good ++ d :: rest) = .error (.byteRange d good.length) := by
  simpa [checkBytes] using checkBytesFrom_bad rest hg hd 0

/-- A sequence is all bytes, or splits at its first offending element. -/
theorem bytes_split (data : List Int) :
    (∀ d ∈ data, byteOk d = true) ∨
      ∃ good d rest, data = good ++ d :: rest ∧ (∀ x ∈ good, byteOk x = true) ∧ byteOk d = false := by
  induction data with
  | nil => exact .inl (by simp)
  | cons d ds ih =>
    cases hd : byteOk d with
    | false => exact .inr ⟨[], d, ds, rfl, by simp, hd⟩
    | true =>
      obtain h | ⟨g, x, r, rfl, hg, hx⟩ := ih
      · exact .inl (by simpa [hd] using h)
      · exact .inr ⟨d :: g, x, r, rfl, by simpa [hd] using hg, hx⟩

@[simp] theorem effectOf_ok {α : Type} (a : α) (f : α → Effect) : effectOf (.ok a) f = f a := rfl

@[simp] theorem effectOf_error {α : Type} (err : Error) (f : α → Effect) :
    effectOf (.error err) f = .keep (.error err) := rfl

/-- Every operation but CONSTRUCT, issued to an existing instance, answers the next state its effect on the engine leaves. -/
theorem exec_of_effect {s : State} {e : Instance} {i : Instr} {f : Effect} (h : s.current = some e)
    (hf : engineEffect e.params i e.engine = some f) : exec i s = .next (f.apply s) := by
  cases i <;> cases hf <;> exact onEngine_some _ h

/-! What each checked operation does to an engine, on operands in range and out of range. -/

theorem byteEffect_ok {d : Int} (h : byteOk d = true) (cfg : Params) (m : Engine) :
    byteEffect d cfg m = .write (byteR cfg m.r d.toNat) .done := by simp [byteEffect, checkByte_ok 0 h]

theorem byteEffect_bad {d : Int} (h : byteOk d = false) (cfg : Params) (m : Engine) :
    byteEffect d cfg m = .keep (.error (.byteRange d 0)) := by simp [byteEffect, checkByte_bad 0 h]

theorem refl8Effect_ok {d : Int} (h : byteOk d = true) (cfg : Params) (m : Engine) :
    refl8Effect d cfg m = .keep (.value (lutRead d.toNat)) := by simp [refl8Effect, checkByte_ok 0 h]

theorem refl8Effect_bad {d : Int} (h : byteOk d = false) (cfg : Params) (m : Engine) :
    refl8Effect d cfg m = .keep (.error (.byteRange d 0)) := by simp [refl8Effect, checkByte_bad 0 h]

theorem processEffect_ok {data : List Int} (h : ∀ d ∈ data, byteOk d = true) (cfg : Params) (m : Engine) :
    processEffect data cfg m = .write (processR cfg m.r (data.map Int.toNat)) .done := by
  simp [processEffect, checkBytes_ok h]

theorem processEffect_bad {good : List Int} {d : Int} (rest : List Int) (hg : ∀ x ∈ good, byteOk x = true)
    (hd : byteOk d = false) (cfg : Params) (m : Engine) :
    processEffect (good ++ d :: rest) cfg m = .keep (.error (.byteRange d good.length)) := by
  simp [processEffect, checkBytes_bad rest hg hd]

theorem loadEffect_ok {cfg : Params} {v : Nat} (h : v < 2 ^ cfg.width) (m : Engine) :
    loadEffect v cfg m = .write v .done := by simp [loadEffect, checkValue_ok h]

theorem loadEffect_bad {cfg : Params} {v : Nat} (h : 2 ^ cfg.width ≤ v) (m : Engine) :
    loadEffect v cfg m = .keep (.error (.valueRange v)) := by simp [loadEffect, checkValue_bad h]

theorem reflwEffect_ok {cfg : Params} {v : Nat} (h : v < 2 ^ cfg.width) (m : Engine) :
    reflwEffect v cfg m = .keep (.value (reflectBits cfg.width v)) := by simp [reflwEffect, checkValue_ok h]

theorem reflwEffect_bad {cfg : Params} {v : Nat} (h : 2 ^ cfg.width ≤ v) (m : Engine) :
    reflwEffect v cfg m = .keep (.error (.valueRange v)) := by simp [reflwEffect, checkValue_bad h]

theorem checkStart_ok {cfg : Params} {iv : Option Nat} (h : ∀ v, iv = some v → v < 2 ^ cfg.width) :
    checkStart cfg iv = .ok (iv.getD cfg.init) := by
  cases iv with
  | none => rfl
  | some v => exact checkValue_ok (h v rfl)

theorem computeEffect_ok {data : List Int} {iv : Option Nat} {cfg : Params} (hi : ∀ v, iv = some v → v < 2 ^ cfg.width)
    (hd : ∀ d ∈ data, byteOk d = true) (m : Engine) :
    computeEffect data iv cfg m =
      .write (processR cfg (iv.getD cfg.init) (data.map Int.toNat))
        (.value (finalValue cfg (processR cfg (iv.getD cfg.init) (data.map Int.toNat)))) := by
  simp [computeEffect, checkStart_ok hi, checkBytes_ok hd]

theorem computeEffect_badStart {data : List Int} {v : Nat} {cfg : Params} (h : 2 ^ cfg.width ≤ v) (m : Engine) :
    computeEffect data (some v) cfg m = .keep (.error (.valueRange v)) := by
  simp [computeEffect, checkStart, checkValue_bad h]

theorem computeEffect_badByte {good : List Int} {d : Int} (rest : List Int) {iv : Option Nat} {cfg : Params}
    (hi : ∀ v, iv = some v → v < 2 ^ cfg.width) (hg : ∀ x ∈ good, byteOk x = true) (hd : byteOk d = false) (m : Engine) :
    computeEffect (good ++ d :: rest) iv cfg m = .keep (.error (.byteRange d good.length)) := by
  simp [computeEffect, checkStart_ok hi, checkBytes_bad rest hg hd]

theorem effect_isSome {e : Instance} {i : Instr} (h : i.isConstruct = false) :
    ∃ f, engineEffect e.params i e.engine = some f := by
  cases i <;> simp_all [engineEffect, Instr.isConstruct]

/-- With no instance selected no operation but CONSTRUCT can be issued. -/
theorem exec_noInstance {s : State} {i : Instr} (h : s.current = none) (hi : i.isConstruct = false) :
    exec i s = .fault .noInstance := by
  cases i with
  | construct => cases hi
  | _ => exact onEngine_none _ h

/-- The inversion of `exec`: an operation that answers a next state is CONSTRUCT with legal constants, CONSTRUCT that failed, or
an operation that had its effect on the selected instance. -/
theorem exec_cases {s t : State} {i : Instr} (h : exec i s = .next t) :
    (∃ p : Params, p.Legal ∧ i.isConstruct = true ∧ t = { s with
        instances := s.instances ++ [{ params := p, engine := { r := p.init } }]
        sel := some s.instances.length
        response := .created s.instances.length }) ∨
    (∃ err, i.isConstruct = true ∧ t = { s with sel := none, response := .error err }) ∨
    (∃ e f, i.isConstruct = false ∧ s.current = some e ∧ engineEffect e.params i e.engine = some f ∧ t = f.apply s) := by
  cases hi : i.isConstruct with
  | true =>
    cases i <;> simp [Instr.isConstruct] at hi
    rename_i width poly init refin refout xorout
    simp only [exec, execConstruct] at h
    split at h
    · rename_i p hp
      simp only [addInstance, Engine.fresh, Host.Outcome.next.injEq] at h
      exact .inl ⟨p, checkParams_legal hp, rfl, h.symm⟩
    · simp only [failConstruct, raise_eq, Host.Outcome.next.injEq] at h
      exact .inr (.inl ⟨_, rfl, h.symm⟩)
  | false =>
    cases hc : s.current with
    | none => simp [exec_noInstance hc hi] at h
    | some e =>
      obtain ⟨f, hf⟩ := effect_isSome (e := e) hi
      rw [exec_of_effect hc hf] at h
      cases h
      exact .inr (.inr ⟨e, f, rfl, rfl, hf, rfl⟩)

@[simp] theorem Effect.apply_sel (s : State) (f : Effect) : (f.apply s).sel = s.sel := by cases f <;> simp [Effect.apply]

@[simp] theorem Effect.apply_pending (s : State) (f : Effect) : (f.apply s).pending = s.pending := by
  cases f <;> simp [Effect.apply]

@[simp] theorem Effect.apply_length (s : State) (f : Effect) : (f.apply s).instances.length = s.instances.length := by
  cases f <;> simp [Effect.apply]

/-- What an effect makes of the register. -/
def Effect.newR (e : Instance) (f : Effect) : Nat := (f.engine e.engine).r

@[simp] theorem Effect.apply_response (s : State) (f : Effect) : (f.apply s).response = f.handsBack := by
  cases f <;> rfl

/-- The selected instance after an effect. -/
theorem Effect.apply_current {s : State} {e : Instance} (f : Effect) (h : s.current = some e) :
    (f.apply s).current = some { params := e.params, engine := { r := f.newR e } } := by
  cases f with
  | keep x => simpa [Effect.apply, Effect.newR, Effect.engine] using h
  | write v x => exact writeR_current v h

/-- An instance other than the selected one after an effect. -/
theorem Effect.apply_other {s : State} {k : Nat} (f : Effect) (h : s.sel ≠ some k) :
    (f.apply s).instances[k]? = s.instances[k]? := by
  cases f with
  | keep x => rfl
  | write v x => exact writeR_other v h

/-- Every instance after an effect, with the register of the selected one as the effect leaves it. -/
theorem Effect.apply_getElem? {s : State} {e : Instance} (f : Effect) (h : s.current = some e) (k : Nat) :
    (f.apply s).instances[k]? =
      (s.instances[k]?).map fun a =>
        { params := a.params, engine := { r := if s.sel = some k then f.newR e else a.engine.r } } := by
  cases f with
  | write v x => exact writeR_getElem? s v k
  | keep x =>
    simp only [Effect.apply, Effect.newR, Effect.engine]
    by_cases hk : s.sel = some k
    · obtain ⟨j, h1, h2⟩ := State.current_eq_some.1 h
      rw [h1] at hk
      cases hk
      simp [h1, h2]
    · simp [hk]

end Sys2Proof.Machine
end

