-- ==== Sys2Proof/Laws/Reflection.lean ====
section
/-! SUPPORT. The bits of the two reflection loops (R53, R57). -/

namespace Sys2Proof.Machine

theorem bit_eq_toNat (x i : Nat) : bitAt x i = (x.testBit i).toNat := by
  rw [bitAt, Nat.shiftRight_eq_div_pow, Nat.toNat_testBit]

theorem testBit_bit_shiftLeft (x i k j : Nat) :
    (bitAt x i <<< k).testBit j = (decide (j = k) && x.testBit i) := by
  rw [bit_eq_toNat, Nat.testBit_shiftLeft]
  cases x.testBit i
  · simp
  · by_cases h : j = k
    · subst h; simp
    · by_cases hk : k ≤ j
      · have : j - k ≠ 0 := by omega
        obtain ⟨m, hm⟩ := Nat.exists_eq_succ_of_ne_zero this
        simp [h, hm, Nat.testBit_succ]
      · simp [h, hk]

/-- The bits of the loop of R57 after its first `m` passes: place `j` holds bit `n - 1 - j` of the operand. -/
theorem testBit_reflectLoop (n x m j : Nat) (hm : m ≤ n) :
    ((List.range m).foldl (fun r i => r ||| (bitAt x i <<< (n - 1 - i))) 0).testBit j =
      (decide (j < n ∧ n - 1 - j < m) && x.testBit (n - 1 - j)) := by
  induction m with
  | zero => simp
  | succ m ih =>
    rw [List.range_succ, List.foldl_append]
    simp only [List.foldl_cons, List.foldl_nil, Nat.testBit_or, testBit_bit_shiftLeft, ih (by omega)]
    by_cases h : j = n - 1 - m
    · subst h
      have h1 : n - 1 - (n - 1 - m) = m := by omega
      have h2 : n - 1 - m < n := by omega
      simp [h1, h2]
    · by_cases h1 : j < n
      · have h3 : (n - 1 - j < m + 1) ↔ (n - 1 - j < m) := by omega
        simp [h, h1, h3]
      · simp [h, h1]

theorem testBit_reflectBits (n x j : Nat) :
    (reflectBits n x).testBit j = (decide (j < n) && x.testBit (n - 1 - j)) := by
  rw [reflectBits, testBit_reflectLoop n x n j (Nat.le_refl n)]
  congr 1
  simp only [decide_eq_decide]
  omega

theorem reflectBits_lt (n x : Nat) : reflectBits n x < 2 ^ n := by
  apply Nat.lt_pow_two_of_testBit
  intro i hi
  simp [testBit_reflectBits, Nat.not_lt.2 hi]

theorem reflectByte_eq (b : Nat) : reflectByte b = reflectBits 8 b := rfl

theorem lutRead_lt (b : Nat) : lutRead b < 256 := by
  by_cases h : b < 256
  · revert b; decide +kernel
  · have : lut.length = 256 := by decide +kernel
    rw [lutRead, List.getD_eq_default _ _ (by omega)]
    decide

theorem inputByte_lt (p : Params) {d : Nat} (h : d < 256) : inputByte p d < 256 := by
  unfold inputByte
  split
  · exact lutRead_lt d
  · exact h

end Sys2Proof.Machine
end

