-- ==== Sys2Proof/Laws/Configured.lean ====
section
/-! SUPPORT. The configured machine of R14: what CONSTRUCT's configuration is, and why the host's machine, whose step has no
configuration argument, must keep the constants in its state (log entry 1). -/

namespace Sys2Proof.Machine

/-- The making of a configuration succeeds with the constants that pass the tests of R63. -/
theorem configure_ok {width : Int} {poly init : Nat} {refin refout : Bool} {xorout : Nat} {p : Params}
    (h : checkParams width poly init refin refout xorout = .ok p) :
    configure width poly init refin refout xorout = .ok ⟨p, checkParams_legal h⟩ := by
  unfold configure
  split
  · rename_i q hq
    cases h.symm.trans hq
    rfl
  · rename_i err herr
    cases h.symm.trans herr

/-- What the machine of the constants `cfg` hands back for a list of operations, one by one. -/
def answers (cfg : Params) : Engine → List Instr → List Response
  | _, [] => []
  | m, i :: is =>
    match engineStep cfg i m with
    | some (m', x) => x :: answers cfg m' is
    | none => []

theorem reflectBits_zero (n : Nat) : reflectBits n 0 = 0 := by
  apply Nat.eq_of_testBit_eq
  intro j
  simp [testBit_reflectBits]

theorem answers_value (cfg : Params) : answers cfg (Engine.fresh cfg) [.value] = [.value cfg.init] := rfl

theorem answers_load (cfg : Params) (m : Engine) (v : Nat) :
    answers cfg m [.load v] = [if v < 2 ^ cfg.width then .done else .error (.valueRange v)] := by
  by_cases h : v < 2 ^ cfg.width
  · simp [answers, engineStep, engineEffect, loadEffect_ok h, h, Effect.handsBack]
  · simp [answers, engineStep, engineEffect, loadEffect_bad (Nat.not_lt.1 h), h, Effect.handsBack]

theorem answers_load_final (cfg : Params) (m : Engine) :
    answers cfg m [.load 0, .final] = [.done, .value cfg.xorout] := by
  simp [answers, engineStep, engineEffect, loadEffect_ok (cfg := cfg) (v := 0) (Nat.two_pow_pos _), Effect.handsBack,
    Effect.engine, finalEffect, finalValue, reflectBits_zero]

/-- Whatever its states are, a machine without a configuration argument that answers, after CONSTRUCT, as the instance
constructed answers (the list CONSTRUCT; ...; FINAL of R90) is in different states after CONSTRUCT with different `WIDTH`,
`INIT` or `XOROUT`. So such a machine keeps them in its state. -/
theorem state_after_construct_determines_constants {σ : Type} (start : Params → σ) (run : σ → List Instr → List Response)
    (h : ∀ p, p.Legal → ∀ is, run (start p) is = answers p (Engine.fresh p) is) {p q : Params} (hp : p.Legal)
    (hq : q.Legal) (he : start p = start q) : p.width = q.width ∧ p.init = q.init ∧ p.xorout = q.xorout := by
  have key : ∀ is, answers p (Engine.fresh p) is = answers q (Engine.fresh q) is := fun is => by
    rw [← h p hp, ← h q hq, he]
  have no_less : ∀ a b : Params, (∀ is, answers a (Engine.fresh a) is = answers b (Engine.fresh b) is) →
      ¬ a.width < b.width := by
    intro a b hab hlt
    have hv := hab [.load (2 ^ a.width)]
    rw [answers_load, answers_load, if_neg (Nat.lt_irrefl _), if_pos (Nat.pow_lt_pow_right (by decide) hlt)] at hv
    cases hv
  refine ⟨?_, ?_, ?_⟩
  · have h1 := no_less p q key
    have h2 := no_less q p fun is => (key is).symm
    omega
  · have hi := key [.value]
    rw [answers_value, answers_value] at hi
    injection hi with hi
    injection hi
  · have hx := key [.load 0, .final]
    rw [answers_load_final, answers_load_final] at hx
    injection hx with _ hx
    injection hx with hx
    injection hx

end Sys2Proof.Machine
end

