-- ==== Sys2Proof/Laws/Encoding.lean ====
section
/-! SUPPORT. The fields of an encoded word (R41 to R47). -/

namespace Sys2Proof

theorem slice_low3 (c : Nat) : slice c 2 0 = c % 8 := by simp [slice]

theorem CmdWord.op_eq (w : CmdWord) : w.op = w.bits.toNat % 8 := slice_low3 _

theorem CmdWord.op_lt (w : CmdWord) : w.op < 8 := by rw [CmdWord.op_eq]; omega

/-- The bits of the word that stands for `{a, op}` with `a` of `n` bits. -/
theorem toNat_withOp {n a op : Nat} (ha : a < 2 ^ n) (ho : op < 8) :
    (CmdWord.ofNat (n + 3) (withOp a op)).bits.toNat = a * 8 + op := by
  have h : a * 8 + op < 2 ^ (n + 3) := by rw [Nat.pow_add]; omega
  simp [CmdWord.ofNat, withOp, Nat.mod_eq_of_lt h]

/-- Its operation code is `op`. -/
theorem op_withOp {n a op : Nat} (ha : a < 2 ^ n) (ho : op < 8) : (CmdWord.ofNat (n + 3) (withOp a op)).op = op := by
  rw [CmdWord.op_eq, toNat_withOp ha ho]; omega

/-- Its operand field, `n` bits from bit 3 up, is `a`. -/
theorem slice_withOp {n a op : Nat} (ha : a < 2 ^ n) (ho : op < 8) :
    slice (CmdWord.ofNat (n + 3) (withOp a op)).bits.toNat (n + 2) 3 = a := by
  rw [toNat_withOp ha ho, slice, Nat.shiftRight_eq_div_pow]
  have h1 : (a * 8 + op) / 2 ^ 3 = a := by omega
  rw [h1, Nat.mod_eq_of_lt]
  exact Nat.lt_of_lt_of_le ha (Nat.pow_le_pow_right (by decide) (by omega))

/-- The bits of a word of known length are below that power of two. -/
theorem CmdWord.bits_lt {w : CmdWord} {n : Nat} (h : w.len = n) : w.bits.toNat < 2 ^ n := by
  subst h
  exact w.bits.isLt

/-- A word is known by its length and its integer. -/
theorem CmdWord.ofNat_eq {w : CmdWord} {n c : Nat} (hl : w.len = n) (hc : c = w.bits.toNat) : CmdWord.ofNat n c = w := by
  subst hl
  subst hc
  cases w
  simp [CmdWord.ofNat]

end Sys2Proof
end

