-- ==== Sys2Proof/Laws/Engine.lean ====
section
/-! SUPPORT. The derived constants as powers of two (R21), the bits of one iteration of the fold (R64), and the bounds of the
register. -/

namespace Sys2Proof.Machine

theorem enlarge_eq (p : Params) : enlarge p = 8 - p.width := by unfold enlarge; split <;> omega

theorem workWidth_eq (p : Params) : workWidth p = p.width + enlarge p := by
  rw [enlarge_eq]; unfold workWidth; split <;> omega

theorem workWidth_eq_max (p : Params) : workWidth p = max p.width 8 := by unfold workWidth; split <;> omega

theorem workWidth_ge (p : Params) : 8 ≤ workWidth p := by rw [workWidth_eq_max]; omega

theorem highbitW_eq (p : Params) : highbitW p = 2 ^ (workWidth p - 1) := Nat.one_shiftLeft _

theorem maskW_eq (p : Params) : maskW p = 2 ^ workWidth p - 1 := by rw [maskW, Nat.one_shiftLeft]

theorem and_highbitW_ne_zero (p : Params) (t : Nat) : t &&& highbitW p ≠ 0 ↔ t.testBit (workWidth p - 1) = true := by
  rw [highbitW_eq, Nat.and_two_pow]
  cases t.testBit (workWidth p - 1) <;> simp

/-- One iteration as arithmetic modulo `2^WW`. -/
theorem foldStep_eq (p : Params) (t : Nat) :
    foldStep p t =
      if t.testBit (workWidth p - 1) then ((t <<< 1) ^^^ polyW p) % 2 ^ workWidth p else (t <<< 1) % 2 ^ workWidth p := by
  simp only [foldStep, and_highbitW_ne_zero, maskW_eq, Nat.and_two_pow_sub_one_eq_mod]

/-- The bits of one iteration: the bit below, and the polynomial's bit where the top bit was set. -/
theorem testBit_foldStep (p : Params) (t j : Nat) :
    (foldStep p t).testBit j =
      (decide (j < workWidth p) &&
        ((decide (1 ≤ j) && t.testBit (j - 1)) ^^ (t.testBit (workWidth p - 1) && (polyW p).testBit j))) := by
  rw [foldStep_eq]
  cases h : t.testBit (workWidth p - 1) <;> simp [Nat.testBit_mod_two_pow, Nat.testBit_xor, Nat.testBit_shiftLeft]

theorem foldStep_lt (p : Params) (t : Nat) : foldStep p t < 2 ^ workWidth p := by
  rw [foldStep_eq]
  split <;> exact Nat.mod_lt _ (Nat.two_pow_pos _)

theorem fold_lt (p : Params) (t e : Nat) : fold p t e < 2 ^ workWidth p := by
  rw [fold, Function.iterate_succ_apply']
  exact foldStep_lt _ _

theorem shiftRight_enlarge_lt (p : Params) {t : Nat} (h : t < 2 ^ workWidth p) : t >>> enlarge p < 2 ^ p.width := by
  rw [Nat.shiftRight_eq_div_pow, Nat.div_lt_iff_lt_mul (Nat.two_pow_pos _), ← Nat.pow_add, ← workWidth_eq]
  exact h

theorem shiftLeft_enlarge_lt (p : Params) {r : Nat} (h : r < 2 ^ p.width) : r <<< enlarge p < 2 ^ workWidth p := by
  rw [Nat.shiftLeft_eq, workWidth_eq, Nat.pow_add]
  exact Nat.mul_lt_mul_of_pos_right h (Nat.two_pow_pos _)

theorem shiftLeft_shiftRight (r k : Nat) : (r <<< k) >>> k = r := by simp

theorem byteR_lt (p : Params) (r d : Nat) : byteR p r d < 2 ^ p.width := shiftRight_enlarge_lt p (fold_lt p _ _)

theorem foldBytes_lt (p : Params) (data : List Nat) {t : Nat} (h : t < 2 ^ workWidth p) :
    data.foldl (fun t d => fold p t (inputByte p d)) t < 2 ^ workWidth p := by
  induction data generalizing t with
  | nil => exact h
  | cons d ds ih => exact ih (fold_lt p t _)

theorem processR_lt (p : Params) {r : Nat} (data : List Nat) (h : r < 2 ^ p.width) : processR p r data < 2 ^ p.width :=
  shiftRight_enlarge_lt p (foldBytes_lt p data (shiftLeft_enlarge_lt p h))

theorem finalValue_lt {p : Params} {r : Nat} (hp : p.Legal) (hr : r < 2 ^ p.width) : finalValue p r < 2 ^ p.width := by
  rw [finalValue]
  refine Nat.xor_lt_two_pow ?_ hp.2.2.2
  split
  · exact reflectBits_lt _ _
  · exact hr

/-- The low `S` bits of the pre-shifted polynomial are zero (R21). -/
theorem testBit_polyW_low (p : Params) {j : Nat} (h : j < enlarge p) : (polyW p).testBit j = false := by
  simp [polyW, Nat.testBit_shiftLeft, Nat.not_le.2 h]

/-- After `k` iterations the bits below both `k` and `S` are zero (R74). -/
theorem testBit_iterate_low (p : Params) (k t j : Nat) (hk : j < k) (hs : j < enlarge p) :
    ((foldStep p)^[k] t).testBit j = false := by
  induction k generalizing j with
  | zero => omega
  | succ k ih =>
    rw [Function.iterate_succ_apply', testBit_foldStep, testBit_polyW_low p hs]
    cases j with
    | zero => simp
    | succ j => simp [ih j (by omega) (by omega)]

end Sys2Proof.Machine
end

