-- ==== Sys2Proof/Laws/PerInstr.lean ====
section
/-! SUPPORT. Statements about every operation as syntax, one lemma per constructor. -/

namespace Sys2Proof.Laws.EncodedLength

/-- The command word the encoder gives has the length of the format of its operation code on that instance (R42 to R44). -/
def Statement (i : Instr) : Prop :=
  ∀ (width : Nat) (w : CmdWord), 1 ≤ width → encode width i = some w → w.op ≠ 0 →
    w.len = formatLength width (formatOf w.op)

theorem reset : Statement .reset := by
  rintro width w - h -
  cases h; rfl

theorem final : Statement .final := by
  rintro width w - h -
  cases h; rfl

theorem value : Statement .value := by
  rintro width w - h -
  cases h; rfl

/-- A word of format V has the length of its operation code's format. -/
theorem ofWordV {width v op : Nat} {w : CmdWord} (ho : op = 2 ∨ op = 7) (h : wordV width v op = some w) :
    w.len = formatLength width (formatOf w.op) := by
  simp only [wordV, Option.ite_none_right_eq_some, Option.some.injEq] at h
  obtain ⟨hv, rfl⟩ := h
  rw [op_withOp (by simpa [valueOk] using hv) (by omega)]
  obtain rfl | rfl := ho <;> rfl

/-- A word of format B has the length of its operation code's format. -/
theorem ofWordB {width op : Nat} {d : Int} {w : CmdWord} (ho : op = 3 ∨ op = 6) (h : wordB d op = some w) :
    w.len = formatLength width (formatOf w.op) := by
  simp only [wordB, Option.ite_none_right_eq_some, Option.some.injEq] at h
  obtain ⟨hd, rfl⟩ := h
  rw [op_withOp (n := 8) (by simp [byteOk] at hd; omega) (by omega)]
  obtain rfl | rfl := ho <;> rfl

theorem load (v : Nat) : Statement (.load v) := fun _ _ _ h _ => ofWordV (.inl rfl) h

theorem reflw (v : Nat) : Statement (.reflw v) := fun _ _ _ h _ => ofWordV (.inr rfl) h

theorem byte (d : Int) : Statement (.byte d) := fun _ _ _ h _ => ofWordB (.inl rfl) h

theorem refl8 (d : Int) : Statement (.refl8 d) := fun _ _ _ h _ => ofWordB (.inr rfl) h

theorem illegal (w : CmdWord) : Statement (.illegal w) := by
  rintro width w' - h h0
  simp only [encode, Option.ite_none_right_eq_some, Option.some.injEq] at h
  obtain ⟨h1, rfl⟩ := h
  exact absurd h1 h0

theorem construct (width : Int) (poly init : Nat) (refin refout : Bool) (xorout : Nat) :
    Statement (.construct width poly init refin refout xorout) := by
  rintro n w - h -
  cases h

theorem process (data : List Int) : Statement (.process data) := by
  rintro n w - h -
  cases h

theorem compute (data : List Int) (iv : Option Nat) : Statement (.compute data iv) := by
  rintro n w - h -
  cases h

theorem finalBytes (order : ByteOrder) : Statement (.finalBytes order) := by
  rintro n w - h -
  cases h

theorem finalHex (order : ByteOrder) : Statement (.finalHex order) := by
  rintro n w - h -
  cases h

end Sys2Proof.Laws.EncodedLength
end

