-- ==== Sys2Proof/Laws/Serial.lean ====
section
/-! SUPPORT. The bit-serial shift register of R31 and the working register of R64, side by side. -/

namespace Sys2Proof.Machine

/-- The bits of the shift register of R31 after one bit is fed. -/
theorem testBit_serialBit (p : Params) (hp : p.Legal) (r : Nat) (b : Bool) (j : Nat) :
    (serialBit p r b).testBit j =
      (decide (j < p.width) &&
        ((decide (1 ≤ j) && r.testBit (j - 1)) ^^ ((r.testBit (p.width - 1) ^^ b) && p.poly.testBit j))) := by
  have hpoly : ¬ j < p.width → p.poly.testBit j = false := fun h =>
    Nat.testBit_lt_two_pow (Nat.lt_of_lt_of_le hp.2.1 (Nat.pow_le_pow_right (by decide) (not_lt.1 h)))
  have h2 : 2 * r = r <<< 1 := by rw [Nat.shiftLeft_eq]; omega
  rw [serialBit, h2]
  cases h : r.testBit (p.width - 1) <;> cases b <;> by_cases hj : j < p.width <;>
    simp [Nat.testBit_mod_two_pow, Nat.testBit_xor, Nat.testBit_shiftLeft, hj, hpoly]

theorem serialBit_lt (p : Params) (hp : p.Legal) (r : Nat) (b : Bool) : serialBit p r b < 2 ^ p.width := by
  apply Nat.lt_pow_two_of_testBit
  intro i hi
  rw [testBit_serialBit p hp]
  simp [not_lt.2 hi]

/-- The working register of R64 once `k` bits of the byte `e` are consumed, when the shift register of R31 holds `r`: the
enlarged register, XORed with the bits still to come at its top. -/
def work (p : Params) (r e k : Nat) : Nat :=
  (r <<< enlarge p) ^^^ (((e <<< k) % 256) <<< (workWidth p - 8))

/-- That the place `j` of the working register holds a bit of the byte after `k` are consumed. -/
abbrev holdsByteBit (p : Params) (k j : Nat) : Prop :=
  workWidth p - 8 ≤ j ∧ j - (workWidth p - 8) < 8 ∧ k ≤ j - (workWidth p - 8)

/-- The bits of the working register. -/
theorem testBit_work (p : Params) (r e k j : Nat) :
    (work p r e k).testBit j =
      ((decide (enlarge p ≤ j) && r.testBit (j - enlarge p)) ^^
        (decide (holdsByteBit p k j) && e.testBit (j - (workWidth p - 8) - k))) := by
  have h256 : (256 : Nat) = 2 ^ 8 := rfl
  rw [work, h256, Nat.testBit_xor, Nat.testBit_shiftLeft, Nat.testBit_shiftLeft, Nat.testBit_mod_two_pow,
    Nat.testBit_shiftLeft]
  simp only [holdsByteBit, Bool.decide_and, Bool.and_assoc]

/-- One iteration of the fold consumes one bit of the byte, top bit first (R31, R64). -/
theorem foldStep_work (p : Params) (hp : p.Legal) (r e k : Nat) (hk : k < 8) :
    foldStep p (work p r e k) = work p (serialBit p r (e.testBit (7 - k))) e (k + 1) := by
  have hW := workWidth_eq p
  have hS := enlarge_eq p
  have h1 := hp.1
  apply Nat.eq_of_testBit_eq
  intro j
  rw [testBit_foldStep, testBit_work p _ e (k + 1), testBit_serialBit p hp, testBit_work, testBit_work]
  have htop : decide (enlarge p ≤ workWidth p - 1) = true := by rw [decide_eq_true_eq]; omega
  have e1 : workWidth p - 1 - enlarge p = p.width - 1 := by omega
  have e2 : decide (holdsByteBit p k (workWidth p - 1)) = true := by
    rw [decide_eq_true_eq]; unfold holdsByteBit; omega
  have e3 : workWidth p - 1 - (workWidth p - 8) - k = 7 - k := by omega
  have hpoly : (polyW p).testBit j = (decide (enlarge p ≤ j) && p.poly.testBit (j - enlarge p)) := by
    rw [polyW, Nat.testBit_shiftLeft]
  rw [htop, e1, e3, hpoly, e2]
  simp only [Bool.true_and]
  by_cases hj : j < workWidth p
  · by_cases hs : enlarge p ≤ j
    · have hj' : j - enlarge p < p.width := by omega
      by_cases hs1 : enlarge p + 1 ≤ j
      · have a1 : enlarge p ≤ j - 1 := by omega
        have a2 : j - 1 - enlarge p = j - enlarge p - 1 := by omega
        have a3 : 1 ≤ j := by omega
        have a4 : 1 ≤ j - enlarge p := by omega
        have a5 : holdsByteBit p k (j - 1) ↔ holdsByteBit p (k + 1) j := by unfold holdsByteBit; omega
        have a6 : j - 1 - (workWidth p - 8) - k = j - (workWidth p - 8) - (k + 1) := by omega
        simp only [hj, hj', hs, a1, a2, a3, a4, a5, a6, decide_true, Bool.true_and]
        generalize (decide (holdsByteBit p (k + 1) j) && _) = x
        generalize r.testBit (j - enlarge p - 1) = y
        generalize ((r.testBit (p.width - 1) ^^ e.testBit (7 - k)) && p.poly.testBit (j - enlarge p)) = z
        cases x <;> cases y <;> cases z <;> rfl
      · have : j = enlarge p := by omega
        subst this
        have a7 : 0 < p.width := by omega
        simp only [hj, le_refl, Nat.sub_self, decide_true, Bool.true_and]
        by_cases hz : 1 ≤ enlarge p
        · have a0 : ¬ enlarge p ≤ enlarge p - 1 := by omega
          have a5 : holdsByteBit p k (enlarge p - 1) ↔ holdsByteBit p (k + 1) (enlarge p) := by
            unfold holdsByteBit; omega
          have a6 : enlarge p - 1 - (workWidth p - 8) - k = enlarge p - (workWidth p - 8) - (k + 1) := by omega
          simp only [hz, a0, a5, a6, a7, decide_true, decide_false, Bool.true_and, Bool.false_and, Bool.false_xor]
          simp [Bool.xor_comm]
        · have a5 : ¬ holdsByteBit p (k + 1) (enlarge p) := by unfold holdsByteBit; omega
          simp only [a5, a7, hz, decide_false, decide_true, Bool.false_and, Bool.true_and, Bool.xor_false, Bool.false_xor]
          simp
    · have a1 : ¬ enlarge p ≤ j - 1 := by omega
      have w8 : workWidth p - 8 = 0 := by omega
      have a5 : holdsByteBit p (k + 1) j ↔ (1 ≤ j ∧ holdsByteBit p k (j - 1)) := by unfold holdsByteBit; omega
      have a6 : j - 1 - k = j - (k + 1) := by omega
      simp only [hs, a1, hj, decide_false, decide_true, Bool.false_and, Bool.and_false, Bool.true_and, Bool.xor_false,
        Bool.false_xor, w8, Nat.sub_zero, a5, a6, Bool.decide_and, Bool.and_assoc]
  · have a1 : ¬ j - enlarge p < p.width := by omega
    have a2 : ¬ holdsByteBit p (k + 1) j := by unfold holdsByteBit; omega
    simp only [hj, a1, a2, decide_false, Bool.false_and, Bool.and_false, Bool.xor_false]

/-- `k` iterations consume `k` bits. -/
theorem iterate_foldStep_work (p : Params) (hp : p.Legal) (r e k : Nat) (hr : r < 2 ^ p.width) (hk : k ≤ 8) :
    (foldStep p)^[k] (work p r e 0) =
        work p ((List.range k).foldl (fun r i => serialBit p r (e.testBit (7 - i))) r) e k ∧
      (List.range k).foldl (fun r i => serialBit p r (e.testBit (7 - i))) r < 2 ^ p.width := by
  induction k with
  | zero => exact ⟨rfl, hr⟩
  | succ k ih =>
    obtain ⟨h1, -⟩ := ih (by omega)
    rw [Function.iterate_succ_apply', h1, foldStep_work p hp _ _ _ (by omega), List.range_succ, List.foldl_append]
    exact ⟨rfl, serialBit_lt p hp _ _⟩

end Sys2Proof.Machine
end

