-- ==== Sys2Proof/Laws/Step.lean ====
section
/-! SUPPORT. What a step and a list of operations can do, said once. -/

namespace Sys2Proof.Machine

/-- A word that decodes runs its operation. -/
theorem issueWord_ok {s : State} {e : Instance} {w : CmdWord} {i : Instr} (h : s.current = some e)
    (hd : decode e.params.width w = .ok i) : issueWord w s = exec i s := by simp [issueWord, h, hd]

/-- A word the decoder refuses raises IllegalCommand. -/
theorem issueWord_bad {s : State} {e : Instance} {w w' : CmdWord} (h : s.current = some e)
    (hd : decode e.params.width w = .error (.wrongLength w')) : issueWord w s = raise (.illegalCommand w') s := by
  simp [issueWord, h, hd]

/-- The inversion of `step`: the block waited, the host turned to another instance, an operation was executed, or a word of the
wrong length was answered with IllegalCommand. -/
theorem step_cases {s t : State} (h : step s = .next t) :
    t = s ∨
    (∃ rest k, k < s.instances.length ∧ t = { s with pending := rest, sel := some k }) ∨
    (∃ rest i, exec i { s with pending := rest } = .next t) ∨
    (∃ rest w, t = { s with pending := rest, response := .error (.illegalCommand w) }) := by
  simp only [step, takeNext] at h
  split at h
  · cases h
    exact .inl rfl
  · rename_i c rest _
    cases c with
    | call i => exact .inr (.inr (.inl ⟨_, _, h⟩))
    | select k =>
      simp only [issue, selectInstance] at h
      split at h
      · cases h
        exact .inr (.inl ⟨_, _, ‹_›, rfl⟩)
      · cases h
    | word w =>
      simp only [issue, issueWord] at h
      split at h
      · split at h
        · exact .inr (.inr (.inl ⟨_, _, h⟩))
        · cases h
          exact .inr (.inr (.inr ⟨_, _, rfl⟩))
      · cases h

/-- A list that runs to its end, followed by another. -/
theorem runOps_append {xs : List Instr} {s : State} {u : Run} (ys : List Instr) (h : runOps xs s = .next u)
    (hn : u.stopped = none) :
    runOps (xs ++ ys) s =
      match runOps ys u.final with
      | .fault f => .fault f
      | .refused r => .refused r
      | .next v => .next { v with returned := u.returned ++ v.returned } := by
  induction xs generalizing s u with
  | nil =>
    cases h
    simp only [List.nil_append]
    split <;> rename_i h <;> rw [h]
  | cons x xs ih =>
    simp only [List.cons_append, runOps] at h ⊢
    cases hx : exec x s with
    | fault f => simp [hx] at h
    | refused f => simp [hx] at h
    | next t =>
      simp only [hx] at h ⊢
      split at h
      · cases h
        cases hn
      · split at h
        · cases h
        · cases h
        · rename_i v hv
          cases h
          rw [ih hv hn]
          cases runOps ys v.final <;> simp

end Sys2Proof.Machine
end

