-- ==== Sys2Proof/Tests/Slice0.lean ====
section
/-! SUPPORT. Tests of the model against figures of spec/95_test_vectors.md and the encodings of spec/30_encoding.md, the smoke test
of WellFormed, and for each statement with hypotheses a state and operands that meet them. Expected values are the spec's. -/

namespace Sys2Proof.Tests

open Sys2Proof Sys2Proof.Machine

/-! Helpers: the parameter sets of 93_implementation_defined.md G1, and what an outcome holds. -/

def rohc : Params := ⟨3, 0x3, 0x7, true, true, 0x0⟩

def xmodem : Params := ⟨16, 0x1021, 0x0000, false, false, 0x0000⟩

def hdlc : Params := ⟨32, 0x04C11DB7, 0xFFFFFFFF, true, true, 0xFFFFFFFF⟩

def darc : Params := ⟨82, 0x0308C0111011401440411, 0, true, true, 0⟩

/-- A machine with one instance whose register is `r`. -/
def one (p : Params) (r : Nat) : State := ⟨[⟨p, ⟨r⟩⟩], some 0, [], .idle⟩

/-- A machine with two instances, the first selected. -/
def two : State := ⟨[⟨rohc, ⟨0x7⟩⟩, ⟨xmodem, ⟨0x31C3⟩⟩], some 0, [], .idle⟩

/-- The machine of two instances with one command issued. -/
def issued (c : Command) : State := { two with pending := [c] }

/-- A machine whose last CONSTRUCT failed. -/
def nobody : State := ⟨[⟨rohc, ⟨0x7⟩⟩], none, [], .error (.configWidth 0)⟩

/-- The selected register and what was handed back, after an outcome. -/
def seen (o : Result) : Option (Option Nat × Response) :=
  match o with
  | .next t => some (t.current.map (fun e => e.engine.r), t.response)
  | .fault _ => none
  | .refused _ => none

/-- The end state of an outcome. -/
def after (o : Result) : Option State :=
  match o with
  | .next t => some t
  | .fault _ => none
  | .refused _ => none

/-- The outcome of a run. -/
def ranTo (o : Host.Outcome Run Fault Refusal) : Option Run :=
  match o with
  | .next u => some u
  | .fault _ => none
  | .refused _ => none

/-! Decoding: words written bit by bit from R42 to R45 and 95_test_vectors.md section 6. -/

theorem test_decode_reset : decode 16 ⟨3, 0b001#3⟩ = .ok .reset := by decide

theorem test_decode_load : decode 16 ⟨19, 0b1111111111111111010#19⟩ = .ok (.load 0xFFFF) := by decide

theorem test_decode_load_width3 : decode 3 ⟨6, 0b100010#6⟩ = .ok (.load 0x4) := by decide

theorem test_decode_byte : decode 16 ⟨11, 0b00110001011#11⟩ = .ok (.byte 0x31) := by decide

theorem test_decode_final : decode 16 ⟨3, 0b100#3⟩ = .ok .final := by decide

theorem test_decode_value : decode 16 ⟨3, 0b101#3⟩ = .ok .value := by decide

theorem test_decode_refl8 : decode 16 ⟨11, 0b00110001110#11⟩ = .ok (.refl8 0x31) := by decide

theorem test_decode_reflw : decode 16 ⟨19, 0b1110110011010010111#19⟩ = .ok (.reflw 0xECD2) := by decide

theorem test_decode_illegal : decode 16 ⟨3, 0b000#3⟩ = .ok (.illegal ⟨3, 0b000#3⟩) := by decide

/-- X10: `BYTE 0x31` cut to 10 bits. -/
theorem test_decode_short_byte :
    decode 16 ⟨10, 0b0110001011#10⟩ = .error (.wrongLength ⟨10, 0b0110001011#10⟩) := by decide

/-- X10: `FINAL` padded to 11 bits. -/
theorem test_decode_padded_final :
    decode 16 ⟨11, 0b00000000100#11⟩ = .error (.wrongLength ⟨11, 0b00000000100#11⟩) := by decide

theorem test_table_words :
    decodeTableWord 8 0x1 = some .reset ∧ decodeTableWord 40 0x2 = some (.load 0) ∧
    decodeTableWord 16 0x18B = some (.byte 0x31) ∧ decodeTableWord 8 0x4 = some .final ∧
    decodeTableWord 8 0x5 = some .value ∧ decodeTableWord 8 0x6 = some (.refl8 0) ∧
    decodeTableWord 40 0x7 = some (.reflw 0) ∧ decodeTableWord 8 0x0 = some (.illegal ⟨3, 0b000#3⟩) ∧
    decodeTableWord 8 0xFC = none := by decide

theorem test_fetch_word_runs :
    seen (step (State.reset.withFetchWord 16 0x18B)) = some (some 0x1208C43E, .done) := by decide +kernel

theorem test_fetch_illegal_word :
    seen (step (State.reset.withFetchWord 8 0x0)) =
      some (some 0xFFFFFFFF, .error (.illegalCommand ⟨3, 0b000#3⟩)) := by decide

/-! WellFormed: one ill-formed term for each check (95_test_vectors.md section 5, X1 to X9). -/

theorem test_ill_formed_byte : (Instr.byte 256).wellFormed 16 = false := by decide

theorem test_ill_formed_byte_negative : (Instr.byte (-1)).wellFormed 16 = false := by decide

theorem test_ill_formed_refl8 : (Instr.refl8 256).wellFormed 16 = false := by decide

theorem test_ill_formed_load : (Instr.load 0x10000).wellFormed 16 = false := by decide

theorem test_ill_formed_reflw : (Instr.reflw 0x10000).wellFormed 16 = false := by decide

theorem test_ill_formed_illegal : (Instr.illegal ⟨3, 0b001#3⟩).wellFormed 16 = false := by decide

theorem test_ill_formed_process : (Instr.process [0x31, 256, 0x33]).wellFormed 16 = false := by decide

theorem test_ill_formed_compute_data : (Instr.compute [256] none).wellFormed 16 = false := by decide

theorem test_ill_formed_compute_iv : (Instr.compute [] (some 0x10000)).wellFormed 16 = false := by decide

theorem test_ill_formed_construct_width : (Instr.construct 0 0 0 false false 0).wellFormed 16 = false := by decide

theorem test_ill_formed_construct_poly : (Instr.construct 16 0x11021 0 false false 0).wellFormed 16 = false := by decide

theorem test_ill_formed_construct_init : (Instr.construct 8 0x07 0x100 false false 0).wellFormed 16 = false := by decide

theorem test_ill_formed_construct_xorout : (Instr.construct 3 0x3 0x7 true true 0x8).wellFormed 16 = false := by decide

/-! Operations, each one step. -/

theorem test_byte_rohc : seen (exec (.byte 0x31) (one rohc 0x7)) = some (some 0x4, .done) := by decide +kernel

theorem test_byte_darc :
    seen (exec (.byte 0x31) (one darc 0)) = some (some 0x1A378822A8088AAAA202A, .done) := by decide +kernel

/-- The engine's own step function, with the constants as its argument (the CRC-3/ROHC example of
R65). -/
theorem test_engine_step : engineStep rohc (.byte 0x31) ⟨0x7⟩ = some (⟨0x4⟩, .done) := by decide +kernel

/-- The same example, as a step of the configured machine. -/
theorem test_block_step :
    blockStep rohc ⟨⟨0x7⟩, [.call (.byte 0x31)], .idle⟩ = .next ⟨⟨0x4⟩, [], .done⟩ := by rfl

/-- K11: the parity instance, width 1. -/
theorem test_byte_width1 : seen (exec (.byte 0x07) (one ⟨1, 1, 0, false, false, 0⟩ 0)) = some (some 1, .done) := by
  decide +kernel

/-- 95_test_vectors.md section 4: width 9, `REFIN` true. -/
theorem test_byte_width9 :
    seen (exec (.byte 0x31) (one ⟨9, 0x119, 0x1FF, true, true, 0x1FF⟩ 0x1FF)) = some (some 0x157, .done) := by
  decide +kernel

theorem test_process_xmodem : seen (exec (.process digits19) (one xmodem 0)) = some (some 0x31C3, .done) := by
  decide +kernel

/-- X7: no byte of the good part is folded. -/
theorem test_process_bad_byte :
    seen (exec (.process [0x31, 256, 0x33]) (one xmodem 0)) = some (some 0, .error (.byteRange 256 1)) := by decide

theorem test_final_hdlc : seen (exec .final (one hdlc 0x9B63D02C)) = some (some 0x9B63D02C, .value 0xCBF43926) := by
  decide +kernel

/-- CRC-12/UMTS: `REFOUT` with a width that is no multiple of 8. -/
theorem test_final_width12 :
    seen (exec .final (one ⟨12, 0x80F, 0, false, true, 0⟩ 0xF5B)) = some (some 0xF5B, .value 0xDAF) := by decide +kernel

theorem test_value : seen (exec .value (one hdlc 0x9B63D02C)) = some (some 0x9B63D02C, .value 0x9B63D02C) := by decide

/-- K20. -/
theorem test_reset : seen (exec .reset (one xmodem 0x31C3)) = some (some 0, .done) := by decide

theorem test_load : seen (exec (.load 0x2672) (one xmodem 0)) = some (some 0x2672, .done) := by decide

/-- X8. -/
theorem test_load_bad : seen (exec (.load 0x10000) (one xmodem 5)) = some (some 5, .error (.valueRange 0x10000)) := by
  decide

theorem test_refl8 : seen (exec (.refl8 0x12) (one rohc 0x7)) = some (some 0x7, .value 0x48) := by decide

theorem test_reflw : seen (exec (.reflw 0xECD2) (one xmodem 0)) = some (some 0, .value 0x4B37) := by decide +kernel

theorem test_illegal :
    seen (exec (.illegal ⟨3, 0#3⟩) (one rohc 0x7)) = some (some 0x7, .error (.illegalCommand ⟨3, 0#3⟩)) := by decide

theorem test_construct :
    after (exec (.construct 16 0x1021 0 false false 0) (one rohc 0x7)) =
      some ⟨[⟨rohc, ⟨0x7⟩⟩, ⟨xmodem, ⟨0⟩⟩], some 1, [], .created 1⟩ := by decide

/-- X5, X6: the first failing test is the one named. -/
theorem test_construct_order :
    seen (exec (.construct (-1) 0x100 0x100 false false 0x100) nobody) = some (none, .error (.configWidth (-1))) ∧
    seen (exec (.construct 8 0x100 0x100 false false 0) nobody) = some (none, .error (.configPolyRange 0x100)) := by decide

/-- K9. -/
theorem test_compute_a :
    seen (exec (.compute [0x61] none) (one hdlc 0)) = some (some 0x3D8212E8, .value 0xE8B7BE43) := by decide +kernel

/-- The step of K21, by `iv`. -/
theorem test_compute_iv :
    seen (exec (.compute [0x32] (some 0x2672)) (one xmodem 0)) = some (some 0x20B5, .value 0x20B5) := by decide +kernel

theorem test_final_bytes_little :
    seen (exec (.finalBytes .little) (one hdlc 0x9B63D02C)) =
      some (some 0x9B63D02C, .bytes [0x26, 0x39, 0xF4, 0xCB]) := by decide +kernel

theorem test_final_bytes_width3 :
    seen (exec (.finalBytes .big) (one rohc 0x3)) = some (some 0x3, .bytes [0x06]) := by decide +kernel

/-- The digits of "CBF43926" in either case; HEX_STYLE itself is open. -/
theorem test_hex_text :
    hexText ⟨true, ['0', 'x']⟩ [0xCB, 0xF4, 0x39, 0x26] = ['0', 'x', 'C', 'B', 'F', '4', '3', '9', '2', '6'] ∧
    hexText ⟨false, []⟩ [0xCB, 0x06] = ['c', 'b', '0', '6'] := by decide +kernel

theorem test_final_hex (t : State) (h : exec (.finalHex .little) (one rohc 0x3) = .next t) :
    t.response = .text (hexText Config.hexStyle [0x06]) := by
  cases h
  rfl

theorem test_fast_path : (fastProcess xmodem 0 [0x31, 0x32]).toNat = 0x20B5 := by decide +kernel

theorem test_serial_byte : serialByte rohc 0x7 0x8C = 0x4 := by decide +kernel

/-- P2's list, steps 1 to 5, with a refused word put behind. -/
theorem test_run_stops :
    ranTo (runOps [.final, .byte 0x31, .byte 0x32, .value, .load 8, .final] (one rohc 0x7)) =
      some ⟨[.value 0x7, .value 0x5], ⟨[⟨rohc, ⟨0x5⟩⟩], some 0, [], .error (.valueRange 8)⟩, some (.valueRange 8)⟩ := by
  decide +kernel

/-! Witnesses: a concrete state and operands that meet the hypotheses of each statement. A docstring names the statements a
witness serves; a witness without one serves the statement of its name. -/

theorem one_inv : (one rohc 0x5).Inv := by
  refine ⟨?_, ?_⟩
  · intro e he
    simp only [one, List.mem_singleton] at he
    subst he
    exact ⟨by decide, by decide⟩
  · intro k hk
    simp only [one, Option.some.injEq] at hk
    subst hk
    decide

theorem witness_ResetValueOfRIsInit :
    hdlc.Legal ∧ (1 : Int) ≤ 3 ∧ 0x7 < 2 ^ (3 : Int).toNat ∧ two.current = some ⟨rohc, ⟨0x7⟩⟩ := by decide

theorem witness_AnyOperationMayFollowReset : rohc.Legal ∧ (⟨1, 1, 1, false, false, 1⟩ : Params).Legal := by decide

theorem witness_InvariantHoldsAfterReset : darc.Legal := by decide

theorem witness_StepKeepsInvariant :
    ∃ t, State.Inv { one rohc 0x5 with pending := [.call (.byte 0x33)] } ∧
      step { one rohc 0x5 with pending := [.call (.byte 0x33)] } = .next t := ⟨_, one_inv, rfl⟩

/-- One conjunct for each clause: a word, a call, the last existing instance, nothing pending. -/
theorem witness_StepRunsTheIssuedCommand :
    (issued (.word ⟨6, 0b111010#6⟩)).pending = [.word ⟨6, 0b111010#6⟩] ∧
    (issued (.word ⟨6, 0b111010#6⟩)).current = some ⟨rohc, ⟨0x7⟩⟩ ∧
    decode rohc.width ⟨6, 0b111010#6⟩ = .ok (.load 0x7) ∧
    (issued (.call (.byte 255))).pending = [.call (.byte 255)] ∧
    (issued (.select 1)).pending = [.select 1] ∧ 1 < (issued (.select 1)).instances.length ∧ two.pending = [] := by decide

theorem witness_ConstantsOfAnInstanceNeverChange :
    ∃ t, step { two with pending := [.call .reset] } = .next t ∧
      ({ two with pending := [.call .reset] } : State).instances[1]? = some ⟨xmodem, ⟨0x31C3⟩⟩ := ⟨_, rfl, rfl⟩

theorem witness_EveryOperationCompletes :
    two.current = some ⟨rohc, ⟨0x7⟩⟩ ∧ nobody.current = none ∧ (Instr.byte 256).isConstruct = false ∧
    (Instr.construct 0 0 0 false false 0).isConstruct = true := by decide

/-- The last existing instance, and a word the decoder refuses. -/
theorem witness_StepCompletesOnAnExistingInstance :
    (issued (.select 1)).current = some ⟨rohc, ⟨0x7⟩⟩ ∧
    (∀ k rest, (issued (.select 1)).pending = .select k :: rest → k < (issued (.select 1)).instances.length) ∧
    (issued (.word ⟨2, 0b10#2⟩)).current = some ⟨rohc, ⟨0x7⟩⟩ ∧
    ∀ k rest, (issued (.word ⟨2, 0b10#2⟩)).pending = .select k :: rest →
      k < (issued (.word ⟨2, 0b10#2⟩)).instances.length := by
  refine ⟨rfl, ?_, rfl, ?_⟩
  · rintro k rest ⟨⟩
    decide
  · rintro k rest ⟨⟩

theorem witness_DecodeAfterEncodeIsIdentity :
    (Instr.load 7).encodable = true ∧ (Instr.load 7).wellFormed 3 = true ∧
    (Instr.byte 255).encodable = true ∧ (Instr.byte 255).wellFormed 3 = true := by decide

theorem witness_EncodeAfterDecodeIsIdentity : decode 3 ⟨6, 0b111111#6⟩ = .ok (.reflw 7) := by decide

/-- Code 0, and a word of format V, B and N one bit too short or too long. -/
theorem witness_IllegalWordsRaiseIllegalCommand :
    (issued (.word ⟨3, 0b000#3⟩)).pending = [.word ⟨3, 0b000#3⟩] ∧
    (issued (.word ⟨3, 0b000#3⟩)).current = some ⟨rohc, ⟨0x7⟩⟩ ∧ (0b000#3).toNat % 8 = 0 ∧
    (0b00010#5).toNat % 8 = 2 ∧ 5 ≠ rohc.width + 3 ∧ (0b0000111#7).toNat % 8 = 7 ∧ 7 ≠ rohc.width + 3 ∧
    (0b0110001011#10).toNat % 8 = 3 ∧ 10 ≠ 11 ∧ (0b0100#4).toNat % 8 = 4 ∧ 4 ≠ 3 := by decide

/-- The tests of CONSTRUCT at their boundaries: 0 and 1, `2^width` and `2^width - 1`. -/
theorem witness_ConstructChecksThenCreates :
    (0 : Int) ≤ 0 ∧ ¬ (1 : Int) ≤ 0 ∧ 8 ≥ 2 ^ (3 : Int).toNat ∧ ¬ 7 ≥ 2 ^ (3 : Int).toNat := by decide

/-- A selected instance, and byte and value operands on both sides of their bounds: for ReservedCodeRaisesIllegalCommand,
Refl8ReadsTheTable, ReflwReflectsAtTheInstanceWidth, ByteFoldsOneByteIntoR, ValueRangeRefusesTheOperand, ValuePeeksAtR,
ResetWritesInit, LoadWritesItsOperand, EmptyInputLeavesR, FinalBytesSerialisesTheResult, FinalHexWritesTwoDigitsPerByte. -/
theorem witness_operand_bounds :
    (one rohc 0x5).current = some ⟨rohc, ⟨0x5⟩⟩ ∧
    ((0 : Int) ≤ 0 ∧ (0 : Int) ≤ 255) ∧ ((0 : Int) ≤ 255 ∧ (255 : Int) ≤ 255) ∧ ((-1 : Int) < 0) ∧ ((255 : Int) < 256) ∧
    7 < 2 ^ rohc.width ∧ 2 ^ rohc.width ≤ 8 := by decide

theorem witness_ByteRangeRefusesTheWholeOperand :
    (one rohc 0x5).current = some ⟨rohc, ⟨0x5⟩⟩ ∧ (∀ x ∈ [(0x31 : Int), 255], 0 ≤ x ∧ x ≤ 255) ∧ (255 : Int) < 256 ∧
    ∀ v, some 7 = some v → v < 2 ^ rohc.width := by
  refine ⟨by decide, by decide, by decide, ?_⟩
  rintro v ⟨⟩
  decide

/-- For TableHoldsReflectedBytes, ReflectBitsReversesTheBits, ReflectBitsIsAnInvolution. -/
theorem witness_ReflectBits : 7 < 2 ^ 3 ∧ 0 < 2 ^ 0 ∧ 255 < 256 ∧ 2 < 3 := by decide

/-- For FinalReflectsThenXors and SerialisedBytesRebuildTheResult. -/
theorem witness_FinalReflectsThenXors : (one rohc 0x5).current = some ⟨rohc, ⟨0x5⟩⟩ ∧ (⟨rohc, ⟨0x5⟩⟩ : Instance).Ok :=
  ⟨rfl, by decide, by decide⟩

/-- Legal constants below, at and above width 8, with working registers, registers and bytes at their bounds: for
DerivedConstantsHaveTheirValues, FoldIsEightShiftIterations, MaskingOnceEqualsMaskingEachIteration, FoldLeavesLowBitsZero,
ByteIsPolynomialRemainder, ByteIsBitSerialMsbFirst, ByteIsLinear, FastPathsAgreeWithTheGeneralEngine. -/
theorem witness_engine_laws :
    rohc.Legal ∧ hdlc.Legal ∧ (⟨8, 0x07, 0, false, false, 0⟩ : Params).Legal ∧ 0xFF < 2 ^ workWidth rohc ∧
    0x7 < 2 ^ rohc.width ∧ 0xFFFFFFFF < 2 ^ hdlc.width ∧ 255 < 256 ∧ xmodem.Legal ∧ xmodem.width = 16 := by decide

/-- For ChunkedFeedingEqualsOneFeeding and ProcessEqualsItsByteExpansion. -/
theorem witness_chunks :
    (one rohc 0x5).current = some ⟨rohc, ⟨0x5⟩⟩ ∧ (one rohc 0x5).Inv ∧
    (∀ c ∈ [[(0x31 : Int)], [], [0, 255]], ∀ d ∈ c, 0 ≤ d ∧ d ≤ 255) := ⟨rfl, one_inv, by decide⟩

/-- For ProcessFoldsTheSequence, ComputeStartsProcessesAndFinalizes, ComputeEqualsItsExpansion. -/
theorem witness_compute :
    (one rohc 0x5).current = some ⟨rohc, ⟨0x5⟩⟩ ∧ (one rohc 0x5).Inv ∧ (∀ d ∈ [0, 255], d < 256) ∧
    (∀ d ∈ [(0 : Int), 255], 0 ≤ d ∧ d ≤ 255) ∧ ∀ v, some 7 = some v → v < 2 ^ rohc.width := by
  refine ⟨rfl, one_inv, by decide, by decide, ?_⟩
  rintro v ⟨⟩
  decide

theorem witness_ReadingTwiceGivesTheSame : ∃ t, exec .final (one rohc 0x5) = .next t := ⟨_, rfl⟩

/-- For WellFormedListsRunToTheEnd and ListsStopAtTheFirstRefusal. -/
theorem witness_operation_lists :
    (one rohc 0x5).current = some ⟨rohc, ⟨0x5⟩⟩ ∧
    (∀ i ∈ [Instr.byte 0x31, .load 7, .final],
      i.wellFormed rohc.width = true ∧ i.isConstruct = false ∧ i.isIllegal = false) ∧
    (Instr.load 8).isConstruct = false ∧ (Instr.load 8).wellFormed rohc.width = false ∧
    (Instr.illegal ⟨3, 0#3⟩).isIllegal = true := by decide

/-- For ReadersWriteNothing and WritersTouchOnlyR. -/
theorem witness_frames :
    (∃ t, Instr.final.writesR = false ∧ exec .final (one rohc 0x5) = .next t) ∧
    ∃ t, (Instr.byte 0x31).writesR = true ∧ exec (.byte 0x31) (one rohc 0x5) = .next t := ⟨⟨_, rfl, rfl⟩, _, rfl, rfl⟩

theorem witness_ErrorsHaveNoEffect :
    (∃ t, exec (.load 8) (one rohc 0x5) = .next t ∧ t.response = .error (.valueRange 8)) ∧
    ∃ t, exec (.construct 0 0 0 false false 0) (one rohc 0x5) = .next t ∧ t.response = .error (.configWidth 0) :=
  ⟨⟨_, rfl, rfl⟩, _, rfl, rfl⟩

theorem witness_ResultsFitTheirWidths :
    (∃ t, exec .value (one rohc 0x5) = .next t ∧ t.response = .value 0x5 ∧ (one rohc 0x5).Inv) ∧
    ∃ t, exec (.refl8 1) (one rohc 0x5) = .next t ∧ t.response = .value 0x80 := ⟨⟨_, rfl, rfl, one_inv⟩, _, rfl, rfl⟩

theorem witness_OperationsOnDifferentInstancesCommute :
    (0 : Nat) ≠ 1 ∧ two.instances[0]? = some ⟨rohc, ⟨0x7⟩⟩ ∧ two.instances[1]? = some ⟨xmodem, ⟨0x31C3⟩⟩ ∧
    (Instr.byte 0x31).isConstruct = false ∧ Instr.reset.isConstruct = false := by decide

theorem witness_AnOperationDependsOnItsInstanceAlone :
    two.current = some ⟨rohc, ⟨0x7⟩⟩ ∧ (one rohc 0x7).current = some ⟨rohc, ⟨0x7⟩⟩ ∧ (Instr.byte 0x31).isConstruct = false := by
  decide

/-- The least width with its greatest constants, and a step of an instance that is shown. -/
theorem witness_TheHostsMachineRunsTheConfiguredMachine :
    configure 1 1 1 true false 1 = .ok ⟨⟨1, 1, 1, true, false, 1⟩, by decide⟩ ∧ (one rohc 0x5).pending = [] ∧
    Shows { one rohc 0x5 with pending := [.call (.byte 0x33)] } rohc ⟨⟨0x5⟩, [.call (.byte 0x33)], .idle⟩ ∧
    ∃ b' : Block, (configuredCore ⟨rohc, by decide⟩).step (⟨⟨0x5⟩, [.call (.byte 0x33)], .idle⟩ : Block) = .next b' :=
  ⟨rfl, rfl, ⟨rfl, rfl, rfl⟩, _, rfl⟩

/-- A call, and a word at the instance's width; CONSTRUCT. -/
theorem witness_TheStepTakesTheConstantsAsAnArgument :
    (one rohc 0x5).current = some ⟨rohc, ⟨0x5⟩⟩ ∧ (Instr.byte 256).isConstruct = false ∧
    (issued (.word ⟨6, 0b111010#6⟩)).pending = [.word ⟨6, 0b111010#6⟩] ∧
    (issued (.word ⟨6, 0b111010#6⟩)).current = some ⟨rohc, ⟨0x7⟩⟩ ∧
    (Instr.construct 0 0 0 false false 0).isConstruct = true := by decide

/-- For ResetInstanceActsAsAFreshOne and ValueThenLoadTransfersAComputation. -/
theorem witness_transfer :
    (one rohc 0x5).current = some ⟨rohc, ⟨0x5⟩⟩ ∧ two.current = some ⟨rohc, ⟨0x7⟩⟩ ∧ (one rohc 0x5).Inv ∧
    (∀ i ∈ [Instr.byte 0x33, .final], i.isConstruct = false) ∧ 7 < 2 ^ rohc.width :=
  ⟨rfl, rfl, one_inv, by decide, by decide⟩

end Sys2Proof.Tests
end

/-! Proofs about the state: every step keeps the invariant (O4), the constants are an argument of the engine's step (O58), the
host's machine runs the configured one (O59), the derived constants (O20). -/

namespace Sys2Proof.Machine

/-! The value an operation leaves in the register fits in `WIDTH` bits (R13). -/

@[simp] theorem Effect.newR_keep (e : Instance) (x : Response) : (Effect.keep x).newR e = e.engine.r := rfl

@[simp] theorem Effect.newR_write (e : Instance) (v : Nat) (x : Response) : (Effect.write v x).newR e = v := rfl

/-- The check of a value operand lets through the operand itself, and only if it fits. -/
theorem checkValue_eq_ok {p : Params} {v a : Nat} (h : checkValue p v = .ok a) : a = v ∧ v < 2 ^ p.width := by
  by_cases hv : v < 2 ^ p.width
  · rw [checkValue_ok hv] at h
    cases h
    exact ⟨rfl, hv⟩
  · rw [checkValue_bad (Nat.not_lt.1 hv)] at h
    cases h

theorem init_lt_of_legal {p : Params} (hp : p.Legal) : p.init < 2 ^ p.width := hp.2.2.1

/-- COMPUTE starts from a register in range, whether from `INIT` or from `iv`. -/
theorem checkStart_lt {p : Params} {iv : Option Nat} {r : Nat} (hp : p.Legal) (h : checkStart p iv = .ok r) :
    r < 2 ^ p.width := by
  cases iv with
  | none =>
    cases h
    exact init_lt_of_legal hp
  | some v =>
    obtain ⟨rfl, hv⟩ := checkValue_eq_ok h
    exact hv

/-- A checked operation keeps the register in range if it does so on the operands its check lets through: on the others it
leaves the register as it is (R104). -/
theorem effectOf_newR_lt {e : Instance} (he : e.Ok) {α : Type} {c : Except Error α} {g : α → Effect}
    (hg : ∀ a, c = .ok a → (g a).newR e < 2 ^ e.params.width) : (effectOf c g).newR e < 2 ^ e.params.width := by
  cases c with
  | ok a => exact hg a rfl
  | error err => exact he.2

/-- Every operation leaves the register of the engine it is issued to in range. -/
theorem engineEffect_newR_lt {e : Instance} (he : e.Ok) {i : Instr} {f : Effect}
    (hf : engineEffect e.params i e.engine = some f) : f.newR e < 2 ^ e.params.width := by
  have ⟨hp, hr⟩ := he
  cases i <;> cases hf
  case reset => exact init_lt_of_legal hp
  case load v =>
    refine effectOf_newR_lt he fun a ha => ?_
    obtain ⟨rfl, hv⟩ := checkValue_eq_ok ha
    exact hv
  case byte => exact effectOf_newR_lt he fun b _ => byteR_lt _ _ b
  case process => exact effectOf_newR_lt he fun bs _ => processR_lt _ bs hr
  case compute =>
    exact effectOf_newR_lt he fun r0 h0 => effectOf_newR_lt he fun bs _ => processR_lt _ bs (checkStart_lt hp h0)
  case refl8 | reflw => exact effectOf_newR_lt he fun _ _ => hr
  case final | value | illegal | finalBytes | finalHex => exact hr

/-! The invariant under each change of the state (R13, R14). It speaks of the instances and the selection alone, so that what
is pending and what was handed back do not matter to it. -/

theorem State.Inv.apply {s : State} (h : s.Inv) {e : Instance} (he : s.current = some e) {f : Effect}
    (hf : f.newR e < 2 ^ e.params.width) : (f.apply s).Inv := by
  refine ⟨fun x hx => ?_, by simpa using h.2⟩
  obtain ⟨k, hk⟩ := List.mem_iff_getElem?.1 hx
  rw [Effect.apply_getElem? f he k, Option.map_eq_some_iff] at hk
  obtain ⟨a, ha, rfl⟩ := hk
  obtain ⟨hlegal, hr⟩ := h.1 a (List.mem_of_getElem? ha)
  refine ⟨hlegal, ?_⟩
  by_cases hsel : s.sel = some k
  · cases he.symm.trans (State.current_eq_some.2 ⟨k, hsel, ha⟩)
    simpa [hsel] using hf
  · simpa [hsel] using hr

/-- The new instance holds `INIT`, which legal constants have in range. -/
theorem State.Inv.append {s : State} (h : s.Inv) {p : Params} (hp : p.Legal) (x : Response) :
    State.Inv { s with
      instances := s.instances ++ [{ params := p, engine := { r := p.init } }]
      sel := some s.instances.length
      response := x } := by
  refine ⟨fun e he => ?_, fun k hk => ?_⟩
  · obtain hold | hnew := List.mem_append.1 he
    · exact h.1 e hold
    · cases List.mem_singleton.1 hnew
      exact ⟨hp, init_lt_of_legal hp⟩
  · cases hk
    simp

theorem State.Inv.select {s : State} (h : s.Inv) {k : Nat} (hk : k < s.instances.length) (l : List Command) :
    State.Inv { s with pending := l, sel := some k } := by
  refine ⟨h.1, fun j hj => ?_⟩
  cases hj
  exact hk

theorem State.Inv.deselect {s : State} (h : s.Inv) (x : Response) : State.Inv { s with sel := none, response := x } :=
  ⟨h.1, fun _ hk => nomatch hk⟩

theorem exec_inv {s t : State} {i : Instr} (h : s.Inv) (hx : exec i s = .next t) : t.Inv := by
  obtain ⟨p, hp, -, rfl⟩ | ⟨err, -, rfl⟩ | ⟨e, f, -, he, hf, rfl⟩ := exec_cases hx
  · exact h.append hp _
  · exact h.deselect _
  · exact h.apply he (engineEffect_newR_lt (h.current_ok he) hf)

/-- Settles O4, by the inversion of `step` and the invariant's lemma for each of its cases. -/
theorem stepKeepsInvariant : Obligations.StepKeepsInvariant := by
  intro s t h hstep
  obtain rfl | ⟨rest, k, hk, rfl⟩ | ⟨rest, i, hx⟩ | ⟨rest, w, rfl⟩ := step_cases hstep
  · exact h
  · exact h.select hk rest
  · have hrest : State.Inv { s with pending := rest } := h
    exact exec_inv hrest hx
  · exact h

/-! The engine's step and the host's machine (R10, R12, R14). -/

/-- An effect changes the register of the selected instance and nothing else but what is handed back. -/
theorem Effect.apply_wroteR {s : State} {e : Instance} (f : Effect) (h : s.current = some e) :
    WroteR e (f.engine e.engine).r s (f.apply s) :=
  ⟨f.apply_current h, f.apply_sel s, f.apply_pending s, f.apply_length s, fun _ hk => f.apply_other hk⟩

/-- CONSTRUCT has no command word (R46), so the decoder never gives it. -/
theorem isConstruct_of_decode {width : Nat} {w : CmdWord} {i : Instr} (h : decode width w = .ok i) :
    i.isConstruct = false := by
  unfold decode at h
  split at h
  · cases h
    rfl
  · split at h
    · cases h
    · split at h <;> cases h <;> rfl

theorem engineStep_isSome {cfg : Params} {i : Instr} (h : i.isConstruct = false) (m : Engine) :
    ∃ m' x, engineStep cfg i m = some (m', x) := by
  obtain ⟨f, hf⟩ := effect_isSome (e := ⟨cfg, m⟩) h
  exact ⟨_, _, by rw [engineStep, hf]; rfl⟩

theorem engineStepWord_isSome (cfg : Params) (w : CmdWord) (m : Engine) :
    ∃ m' x, engineStepWord cfg w m = some (m', x) := by
  unfold engineStepWord
  split
  · exact engineStep_isSome (isConstruct_of_decode ‹_›) m
  · exact ⟨_, _, rfl⟩

/-- What the engine's step says of an operation, executing it on the selected instance does and hands back. -/
theorem exec_of_engineStep {s : State} {e : Instance} {i : Instr} {m : Engine} {x : Response} (h : s.current = some e)
    (hs : engineStep e.params i e.engine = some (m, x)) :
    ∃ t, exec i s = .next t ∧ t.response = x ∧ WroteR e m.r s t := by
  obtain ⟨f, hf, hmx⟩ := Option.map_eq_some_iff.1 hs
  cases hmx
  exact ⟨_, exec_of_effect h hf, f.apply_response s, f.apply_wroteR h⟩

/-- What the engine's step says of a command word, issuing it to the selected instance does and hands back. -/
theorem issueWord_of_engineStepWord {s : State} {e : Instance} {w : CmdWord} {m : Engine} {x : Response}
    (h : s.current = some e) (hs : engineStepWord e.params w e.engine = some (m, x)) :
    ∃ t, issueWord w s = .next t ∧ t.response = x ∧ WroteR e m.r s t := by
  unfold engineStepWord at hs
  split at hs
  · rw [issueWord_ok h ‹_›]
    exact exec_of_engineStep h hs
  · cases hs
    exact ⟨_, issueWord_bad h ‹_›, rfl, Effect.apply_wroteR (refuse _) h⟩

/-- The same for whatever the host issues to one instance. -/
theorem issue_of_engineTake {s : State} {e : Instance} {c : BlockCommand} {m : Engine} {x : Response}
    (h : s.current = some e) (hs : engineTake e.params c e.engine = some (m, x)) :
    ∃ t, issue c.toCommand s = .next t ∧ t.response = x ∧ WroteR e m.r s t := by
  cases c with
  | word w => exact issueWord_of_engineStepWord h hs
  | call i => exact exec_of_engineStep h hs

theorem step_of_pending_nil {s : State} (h : s.pending = []) : step s = .next s := by simp [step, takeNext, h]

theorem step_of_pending_cons {s : State} {c : Command} {rest : List Command} (h : s.pending = c :: rest) :
    step s = issue c { s with pending := rest } := by simp [step, takeNext, h]

/-- Settles O58: the engine's step answers every operation but CONSTRUCT and every word, and the host's machine does as it
says. -/
theorem theStepTakesTheConstantsAsAnArgument : Obligations.TheStepTakesTheConstantsAsAnArgument := by
  refine ⟨fun s e i he hi => ?_, fun s e w rest hpend he => ?_, fun cfg i m hi => ?_⟩
  · obtain ⟨m, x, hs⟩ := engineStep_isSome (cfg := e.params) hi e.engine
    obtain ⟨t, ht⟩ := exec_of_engineStep he hs
    exact ⟨m, x, t, hs, ht⟩
  · obtain ⟨m, x, hs⟩ := engineStepWord_isSome e.params w e.engine
    have hrest : State.current { s with pending := rest } = some e := he
    obtain ⟨t, ht⟩ := issueWord_of_engineStepWord hrest hs
    rw [step_of_pending_cons hpend]
    exact ⟨m, x, t, hs, ht⟩
  · cases i with
    | construct => rfl
    | _ => cases hi

/-- The constants of a configuration are those that passed the tests of R63. -/
theorem checkParams_of_configure {width : Int} {poly init : Nat} {refin refout : Bool} {xorout : Nat} {cfg : Configuration}
    (h : configure width poly init refin refout xorout = .ok cfg) :
    checkParams width poly init refin refout xorout = .ok cfg.1 := by
  cases hc : checkParams width poly init refin refout xorout with
  | ok p =>
    cases (configure_ok hc).symm.trans h
    rfl
  | error err =>
    unfold configure at h
    split at h
    · rename_i p hp
      cases hc.symm.trans hp
    · cases h

theorem execConstruct_of_configure {width : Int} {poly init : Nat} {refin refout : Bool} {xorout : Nat}
    {cfg : Configuration} (h : configure width poly init refin refout xorout = .ok cfg) (s : State) :
    execConstruct width poly init refin refout xorout s = addInstance cfg.1 s := by
  rw [execConstruct, checkParams_of_configure h]

/-- The inversion of the configured machine's step: it waited, or its engine took the oldest command. -/
theorem blockStep_cases {cfg : Params} {b b' : Block} (h : blockStep cfg b = .next b') :
    (b.pending = [] ∧ b' = b) ∨
    ∃ c rest m x, b.pending = c :: rest ∧ engineTake cfg c b.engine = some (m, x) ∧
      b' = { engine := m, pending := rest, response := x } := by
  unfold blockStep at h
  split at h
  · cases h
    exact .inl ⟨‹_›, rfl⟩
  · split at h
    · cases h
      exact .inr ⟨_, _, _, _, ‹_›, ‹_›, rfl⟩
    · cases h

/-- The host's machine follows a step of the configured machine it shows. -/
theorem step_of_blockStep {s : State} {cfg : Params} {b b' : Block} (h : Shows s cfg b) (hb : blockStep cfg b = .next b') :
    ∃ t, step s = .next t ∧ Shows t cfg b' ∧ t.sel = s.sel ∧ ∀ k, s.sel ≠ some k → t.instances[k]? = s.instances[k]? := by
  have ⟨hcur, hpend, _⟩ := h
  obtain ⟨hnil, rfl⟩ | ⟨c, rest, m, x, hcons, htake, rfl⟩ := blockStep_cases hb
  · rw [hnil] at hpend
    exact ⟨s, step_of_pending_nil hpend, h, rfl, fun _ _ => rfl⟩
  · rw [hcons, List.map_cons] at hpend
    have hrest : State.current { s with pending := rest.map BlockCommand.toCommand } = some ⟨cfg, b.engine⟩ := hcur
    obtain ⟨t, ht, htresp, htcur, htsel, htpend, -, hother⟩ := issue_of_engineTake hrest htake
    rw [step_of_pending_cons hpend]
    exact ⟨t, ht, ⟨htcur, htpend, htresp⟩, htsel, hother⟩

/-- Settles O59: CONSTRUCT lists and selects the instance of the configuration, and each step of the configured machine is one
of the host's. -/
theorem theHostsMachineRunsTheConfiguredMachine : Obligations.TheHostsMachineRunsTheConfiguredMachine := by
  refine ⟨fun s width poly init refin refout xorout cfg hcfg => ?_, fun s cfg b b' h hb => step_of_blockStep h hb⟩
  refine ⟨_, execConstruct_of_configure hcfg s, fun cs hcs => ⟨?_, hcs, rfl⟩⟩
  simp [State.current, Block.fresh]

/-! The derived constants (R21). -/

theorem highbit_eq (p : Params) : highbit p = 2 ^ (p.width - 1) := Nat.one_shiftLeft _

theorem mask_eq (p : Params) : mask p = 2 ^ p.width - 1 := by rw [mask, Nat.one_shiftLeft]

theorem polyW_eq (p : Params) : polyW p = p.poly * 2 ^ enlarge p := Nat.shiftLeft_eq _ _

theorem polyW_lt {p : Params} (hp : p.Legal) : polyW p < 2 ^ workWidth p := shiftLeft_enlarge_lt p hp.2.1

theorem workWidth_of_lt {p : Params} (h : p.width < 8) : workWidth p = 8 := by rw [workWidth_eq_max]; omega

/-- Settles O20, from the equation of each derived constant. -/
theorem derivedConstantsHaveTheirValues : Obligations.DerivedConstantsHaveTheirValues := by
  intro p hp
  refine ⟨highbit_eq p, mask_eq p, enlarge_eq p, workWidth_eq_max p, workWidth_eq p, highbitW_eq p, maskW_eq p,
    fun hw => ?_, polyW_eq p, polyW_lt hp, ?_⟩
  · rw [highbitW_eq, maskW_eq, workWidth_of_lt hw]
    decide
  · rw [polyW_eq, Nat.mul_mod_left]

end Sys2Proof.Machine

/-! Proofs about reflection: the general function (O16, O17), the byte table (O14), and the operations REFL8 and REFLW (O15,
O18). -/

namespace Sys2Proof.Machine

/-! The general function (R57, R58, R61). -/

/-- R57 as the spec words it: bit `i` goes to place `n - 1 - i`. -/
theorem testBit_reflectBits_mirror {n i : Nat} (x : Nat) (hi : i < n) :
    (reflectBits n x).testBit (n - 1 - i) = x.testBit i := by
  have hback : n - 1 - (n - 1 - i) = i := by omega
  have hplace : n - 1 - i < n := by omega
  simp [testBit_reflectBits, hback, hplace]

/-- Settles O16, from the bits of the loop of R57. -/
theorem reflectBitsReversesTheBits : Obligations.ReflectBitsReversesTheBits :=
  ⟨fun n x _ => ⟨reflectBits_lt n x, fun _ hi => testBit_reflectBits_mirror x hi⟩, fun _ => rfl⟩

/-- Below `n` a bit goes to its mirror place and back; from `n` on both sides are zero. -/
theorem reflectBits_reflectBits {n x : Nat} (hx : x < 2 ^ n) : reflectBits n (reflectBits n x) = x := by
  apply Nat.eq_of_testBit_eq
  intro i
  rw [testBit_reflectBits]
  by_cases hi : i < n
  · simp [hi, testBit_reflectBits_mirror x hi]
  · have hzero : x.testBit i = false :=
      Nat.testBit_lt_two_pow (hx.trans_le (Nat.pow_le_pow_right Nat.two_pos (Nat.not_lt.1 hi)))
    simp [hi, hzero]

/-- The operands need not fit: the bits at `n` and above are not read. -/
theorem reflectBits_xor (n a b : Nat) : reflectBits n (a ^^^ b) = reflectBits n a ^^^ reflectBits n b := by
  apply Nat.eq_of_testBit_eq
  intro i
  simp only [testBit_reflectBits, Nat.testBit_xor, Bool.and_xor_distrib_left]

/-- Settles O17, from the involution, the common loop of R53 and R57 at width 8, and the law for XOR. -/
theorem reflectBitsIsAnInvolution : Obligations.ReflectBitsIsAnInvolution :=
  ⟨fun _ _ hx => reflectBits_reflectBits hx, fun b _ => (reflectByte_eq b).symm, fun n a b _ _ => reflectBits_xor n a b⟩

/-! The byte table (R53, R54). -/

/-- The printed table of R54 is the one the loop of R53 computes. -/
theorem lut_eq_map_reflectByte : lut = (List.range 256).map reflectByte := by decide +kernel

theorem lut_getElem? {b : Nat} (hb : b < 256) : lut[b]? = some (reflectByte b) := by
  simp [lut_eq_map_reflectByte, hb]

theorem lutRead_eq_reflectByte {b : Nat} (hb : b < 256) : lutRead b = reflectByte b := by
  simp [lutRead, List.getD_eq_getElem?_getD, lut_getElem? hb]

theorem reflectByte_lt (b : Nat) : reflectByte b < 256 := reflectBits_lt 8 b

/-- A byte read twice through the table is the byte itself (R55). -/
theorem lutRead_lutRead {b : Nat} (hb : b < 256) : lutRead (lutRead b) = b := by
  rw [lutRead_eq_reflectByte hb, lutRead_eq_reflectByte (reflectByte_lt b), reflectByte_eq, reflectByte_eq]
  exact reflectBits_reflectBits hb

theorem lut_length : lut.length = 256 := by simp [lut_eq_map_reflectByte]

/-- R53 as the spec words it: bit `i` goes to place `7 - i`. -/
theorem testBit_reflectByte_mirror {i : Nat} (b : Nat) (hi : i ≤ 7) : (reflectByte b).testBit (7 - i) = b.testBit i := by
  rw [reflectByte_eq]
  exact testBit_reflectBits_mirror (n := 8) b (Nat.lt_succ_of_le hi)

/-- Settles O14: the printed table is the one the loop of R53 computes, and that loop is R57's at width 8. -/
theorem tableHoldsReflectedBytes : Obligations.TableHoldsReflectedBytes :=
  ⟨lut_length, fun b hb => ⟨lut_getElem? hb, reflectByte_lt b, fun _ hi => testBit_reflectByte_mirror b hi⟩⟩

/-! The operations REFL8 and REFLW (R55, R60). -/

/-- An operation whose effect keeps the register hands back a response and changes nothing else. -/
theorem exec_of_keep {s : State} {e : Instance} {i : Instr} {x : Response} (h : s.current = some e)
    (hf : engineEffect e.params i e.engine = some (.keep x)) :
    ∃ t, exec i s = .next t ∧ SameButResponse s t ∧ t.response = x :=
  ⟨_, exec_of_effect h hf, sameButResponse_response s x, rfl⟩

/-- Settles O15, by the check of the operand; a byte in range is read through the table. -/
theorem refl8ReadsTheTable : Obligations.Refl8ReadsTheTable := by
  refine fun s e d he => ⟨fun h0 h255 => ?_, fun hd => ?_⟩
  · have hd : byteOk d = true := byteOk_iff.2 ⟨h0, h255⟩
    have hb : d.toNat < 256 := by omega
    obtain ⟨t, ht, hsame, hresp⟩ := exec_of_keep (i := .refl8 d) he (congrArg some (refl8Effect_ok hd e.params e.engine))
    exact ⟨t, ht, hsame, hresp, lutRead_eq_reflectByte hb, lutRead_lutRead hb⟩
  · exact exec_of_keep he (congrArg some (refl8Effect_bad (byteOk_eq_false.2 hd) e.params e.engine))

/-- Settles O18, by the check of the operand against the instance's width. -/
theorem reflwReflectsAtTheInstanceWidth : Obligations.ReflwReflectsAtTheInstanceWidth := fun _ e _ he =>
  ⟨fun hv => exec_of_keep he (congrArg some (reflwEffect_ok hv e.engine)),
   fun hv => exec_of_keep he (congrArg some (reflwEffect_bad hv e.engine))⟩

end Sys2Proof.Machine

/-! Proofs about the engine: the iterations of the fold (O21, O30, O31, O34), CONSTRUCT (O19), the operations BYTE, FINAL,
VALUE and RESET (O22, O26, O27, O28), empty and chunked input (O38, O36), and reading twice (O41). -/

namespace Sys2Proof.Machine

/-! The fold (R64, R72, R74, R78). -/

/-- Settles O21, from one iteration as arithmetic modulo `2^WW` and the values of the derived constants. -/
theorem foldIsEightShiftIterations : Obligations.FoldIsEightShiftIterations := by
  intro p _ t e _ _
  refine ⟨?_, ?_, ?_⟩
  · rw [foldStep_eq, polyW_eq, enlarge_eq, Nat.shiftLeft_eq, pow_one, Nat.mul_comm t 2, workWidth_eq_max]
  · rw [fold, Nat.shiftLeft_eq, workWidth_eq_max]
  · rw [← workWidth_eq_max]
    exact fold_lt p t e

/-- Bits at `WW` and above never come back down, so an unmasked iteration, masked afterwards, is the masked iteration of the
masked register. -/
theorem foldStepUnmasked_mod (p : Params) (t : Nat) :
    foldStepUnmasked p t % 2 ^ workWidth p = foldStep p (t % 2 ^ workWidth p) := by
  have hW := workWidth_ge p
  have htop : workWidth p - 1 < workWidth p := by omega
  apply Nat.eq_of_testBit_eq
  intro j
  rw [testBit_foldStep, Nat.testBit_mod_two_pow, Nat.testBit_mod_two_pow, Nat.testBit_mod_two_pow, foldStepUnmasked]
  by_cases hj : j < workWidth p
  · have hbelow : j - 1 < workWidth p := by omega
    cases h : t.testBit (workWidth p - 1) <;>
      simp [hj, hbelow, htop, Nat.testBit_xor, Nat.testBit_shiftLeft]
  · simp [hj]

/-- Settles O30: masking carries the unmasked iterations over to the masked ones, and a register in range is its own mask. -/
theorem maskingOnceEqualsMaskingEachIteration : Obligations.MaskingOnceEqualsMaskingEachIteration := by
  intro p _ t ht
  have hmask : Function.Semiconj (· % 2 ^ workWidth p) (foldStepUnmasked p) (foldStep p) := foldStepUnmasked_mod p
  calc (foldStep p)^[8] t
      = (foldStep p)^[8] (t % 2 ^ workWidth p) := by rw [Nat.mod_eq_of_lt ht]
    _ = (foldStepUnmasked p)^[8] t % 2 ^ workWidth p := (hmask.iterate_right 8 t).symm

/-- The low `S` bits are zero after every fold (R74). -/
theorem fold_mod_enlarge (p : Params) (t e : Nat) : fold p t e % 2 ^ enlarge p = 0 := by
  apply Nat.eq_of_testBit_eq
  intro j
  rw [Nat.testBit_mod_two_pow, Nat.zero_testBit]
  by_cases hj : j < enlarge p
  · have h8 : j < 8 := by rw [enlarge_eq] at hj; omega
    rw [fold, testBit_iterate_low p 8 _ j h8 hj, Bool.and_false]
  · simp [hj]

/-- Shrinking after a fold loses nothing (R74). -/
theorem fold_shrink_enlarge (p : Params) (t e : Nat) : (fold p t e >>> enlarge p) <<< enlarge p = fold p t e := by
  rw [Nat.shiftRight_eq_div_pow, Nat.shiftLeft_eq]
  exact Nat.div_mul_cancel (Nat.dvd_of_mod_eq_zero (fold_mod_enlarge p t e))

@[simp] theorem processR_nil (p : Params) (r : Nat) : processR p r [] = r := shiftLeft_shiftRight r (enlarge p)

/-- The working register after the first byte is the enlarged register that BYTE leaves. -/
theorem processR_cons (p : Params) (r d : Nat) (ds : List Nat) : processR p r (d :: ds) = processR p (byteR p r d) ds := by
  rw [processR, processR, byteR, fold_shrink_enlarge, List.foldl_cons]

/-- Shrinking once after all bytes, or after each, leaves the same register (R65, R66, R74). -/
theorem processR_eq_foldl_byteR (p : Params) (r : Nat) (data : List Nat) : processR p r data = data.foldl (byteR p) r := by
  induction data generalizing r with
  | nil => exact processR_nil p r
  | cons d ds ih => rw [processR_cons, ih, List.foldl_cons]

/-- Settles O31, from the zero low bits of a fold. -/
theorem foldLeavesLowBitsZero : Obligations.FoldLeavesLowBitsZero := fun p _ =>
  ⟨fun t e => ⟨fold_mod_enlarge p t e, fold_shrink_enlarge p t e⟩, processR_eq_foldl_byteR p⟩

/-- One iteration is linear: each bit of it is an XOR of bits of the register. -/
theorem foldStep_xor (p : Params) (a b : Nat) : foldStep p (a ^^^ b) = foldStep p a ^^^ foldStep p b := by
  apply Nat.eq_of_testBit_eq
  intro j
  simp only [testBit_foldStep, Nat.testBit_xor, Bool.and_xor_distrib_left, Bool.and_xor_distrib_right, Bool.xor_assoc,
    Bool.xor_left_comm]

theorem fold_xor (p : Params) (t₁ t₂ e₁ e₂ : Nat) :
    fold p (t₁ ^^^ t₂) (e₁ ^^^ e₂) = fold p t₁ e₁ ^^^ fold p t₂ e₂ := by
  have hlinear : Function.Semiconj₂ (foldStep p)^[8] (· ^^^ ·) (· ^^^ ·) :=
    Function.Semiconj₂.iterate (foldStep_xor p) 8
  have hregroup : t₁ ^^^ t₂ ^^^ (e₁ ^^^ e₂) <<< (workWidth p - 8) =
      (t₁ ^^^ e₁ <<< (workWidth p - 8)) ^^^ (t₂ ^^^ e₂ <<< (workWidth p - 8)) := by
    rw [Nat.shiftLeft_xor_distrib]
    ac_rfl
  rw [fold, hregroup]
  exact hlinear _ _

theorem lutRead_xor {a b : Nat} (ha : a < 256) (hb : b < 256) : lutRead (a ^^^ b) = lutRead a ^^^ lutRead b := by
  have hab : a ^^^ b < 256 := Nat.xor_lt_two_pow (n := 8) ha hb
  rw [lutRead_eq_reflectByte ha, lutRead_eq_reflectByte hb, lutRead_eq_reflectByte hab]
  exact reflectBits_xor 8 a b

theorem inputByte_xor (p : Params) {a b : Nat} (ha : a < 256) (hb : b < 256) :
    inputByte p (a ^^^ b) = inputByte p a ^^^ inputByte p b := by
  cases h : p.refin
  · simp [inputByte, h]
  · simp [inputByte, h, lutRead_xor ha hb]

/-- Settles O34: enlarging, the byte's reflection, the fold and shrinking are each linear. -/
theorem byteIsLinear : Obligations.ByteIsLinear := by
  intro p r₁ r₂ d₁ d₂ _ _ _ hd₁ hd₂
  rw [byteR, inputByte_xor p hd₁ hd₂, Nat.shiftLeft_xor_distrib, fold_xor, Nat.shiftRight_xor_distrib, byteR, byteR]

/-! CONSTRUCT (R63). -/

/-- Settles O19, along the four tests: each failed one answers its error, and after the last the instance is added. -/
theorem constructChecksThenCreates : Obligations.ConstructChecksThenCreates := by
  intro s width poly init refin refout xorout
  simp only [exec, execConstruct, checkParams, ge_iff_le]
  split_ifs with hw hp hi hx
  · exact ⟨_, rfl, rfl, rfl, rfl, rfl⟩
  · exact ⟨_, rfl, rfl, rfl, rfl, rfl⟩
  · exact ⟨_, rfl, rfl, rfl, rfl, rfl⟩
  · exact ⟨_, rfl, rfl, rfl, rfl, rfl⟩
  · exact ⟨_, rfl, rfl, rfl, rfl, by simp [State.current]⟩

/-! The operations on the selected instance (R65, R67, R68, R69). -/

/-- An operation whose effect writes the register changes that of the selected instance and hands back a response. -/
theorem exec_of_write {s : State} {e : Instance} {i : Instr} {v : Nat} {x : Response} (h : s.current = some e)
    (hf : engineEffect e.params i e.engine = some (.write v x)) :
    ∃ t, exec i s = .next t ∧ t.response = x ∧ WroteR e v s t :=
  ⟨_, exec_of_effect h hf, rfl, wroteR_writeR v x h⟩

/-- Settles O22, by the check of the operand. -/
theorem byteFoldsOneByteIntoR : Obligations.ByteFoldsOneByteIntoR := fun _ e _ he =>
  ⟨fun h0 h255 => exec_of_write he (congrArg some (byteEffect_ok (byteOk_iff.2 ⟨h0, h255⟩) e.params e.engine)),
   fun hd => exec_of_keep he (congrArg some (byteEffect_bad (byteOk_eq_false.2 hd) e.params e.engine))⟩

/-- Settles O26: FINAL keeps the register and hands back the finalization of it. -/
theorem finalReflectsThenXors : Obligations.FinalReflectsThenXors := by
  intro s e he
  obtain ⟨t, ht, hsame, hresp⟩ := exec_of_keep (i := .final) he rfl
  exact ⟨t, _, ht, hsame, hresp, rfl, fun ⟨hp, hr⟩ => finalValue_lt hp hr⟩

/-- Settles O27: VALUE keeps the register and hands it back. -/
theorem valuePeeksAtR : Obligations.ValuePeeksAtR := fun _ _ he => exec_of_keep he rfl

/-- Settles O28: RESET writes `INIT`, which is what a fresh instance holds. -/
theorem resetWritesInit : Obligations.ResetWritesInit := by
  intro s e he
  obtain ⟨t, ht, hresp, hwrote⟩ := exec_of_write (i := .reset) he rfl
  exact ⟨t, ht, hresp, hwrote, hwrote.1⟩

/-! Empty and chunked input (R75, R77). -/

/-- Settles O38: nothing is folded, so the register comes back as it was. -/
theorem emptyInputLeavesR : Obligations.EmptyInputLeavesR := by
  intro s e he
  have hprocess : processEffect [] e.params e.engine = .write e.engine.r .done := by
    rw [processEffect_ok (by simp), List.map_nil, processR_nil]
  have hcompute : computeEffect [] none e.params e.engine =
      .write e.params.init (.value (finalValue e.params e.params.init)) := by
    rw [computeEffect_ok (by simp) (by simp), List.map_nil, processR_nil, Option.getD_none]
  obtain ⟨t, ht, hresp, -⟩ := exec_of_write (i := .compute [] none) he (congrArg some hcompute)
  exact ⟨exec_of_write he (congrArg some hprocess), t, ht, hresp⟩

theorem exec_process_of_bytes {s : State} {e : Instance} {data : List Int} (h : s.current = some e)
    (hd : ∀ d ∈ data, byteOk d = true) :
    exec (.process data) s =
      .next { writeR (processR e.params e.engine.r (data.map Int.toNat)) s with response := .done } :=
  exec_of_effect (i := .process data) h (congrArg some (processEffect_ok hd e.params e.engine))

/-- An operation that hands back nothing adds nothing to what a list returns. -/
theorem runOps_cons_of_done {i : Instr} {is : List Instr} {s t : State} {u : Run} (h : exec i s = .next t)
    (hd : t.response = .done) (hu : runOps is t = .next u) : runOps (i :: is) s = .next u := by
  simp [runOps, h, hd, hu, Response.returned]

/-- A list of operations that each write the register and hand back nothing runs to its end, and leaves the register that the
writes make in turn. -/
theorem runOps_of_writes {α : Type} {op : α → Instr} {g : Params → Nat → α → Nat} {l : List α}
    (hop : ∀ a ∈ l, ∀ cfg m, engineEffect cfg (op a) m = some (.write (g cfg m.r a) .done)) {s : State} {e : Instance}
    (h : s.current = some e) :
    ∃ x, runOps (l.map op) s =
      .next { returned := [], final := { writeR (l.foldl (g e.params) e.engine.r) s with response := x },
              stopped := none } := by
  induction l generalizing s e with
  | nil => exact ⟨s.response, by rw [List.foldl_nil, writeR_self h]; rfl⟩
  | cons a l ih =>
    simp only [List.mem_cons, forall_eq_or_imp] at hop
    obtain ⟨ha, hl⟩ := hop
    have hexec := exec_of_effect h (ha e.params e.engine)
    obtain ⟨x, hrun⟩ := ih hl (Effect.apply_current (.write (g e.params e.engine.r a) .done) h)
    refine ⟨x, (runOps_cons_of_done hexec rfl hrun).trans ?_⟩
    simp only [List.foldl_cons, Effect.newR_write, Effect.apply, writeR_of_response, writeR_writeR]

/-- Feeding chunks in turn leaves the register of feeding them joined (R75). -/
theorem processR_flatten (p : Params) (r : Nat) (chunks : List (List Int)) :
    processR p r (chunks.flatten.map Int.toNat) = chunks.foldl (fun r c => processR p r (c.map Int.toNat)) r := by
  simp only [processR_eq_foldl_byteR, List.foldl_map, List.foldl_flatten]

/-- Settles O36: PROCESS of each chunk, and BYTE of each element, write in turn what the joined PROCESS writes at once. -/
theorem chunkedFeedingEqualsOneFeeding : Obligations.ChunkedFeedingEqualsOneFeeding := by
  intro s e chunks he _ hchunks
  have hok : ∀ c ∈ chunks, ∀ d ∈ c, byteOk d = true := fun c hc d hd => byteOk_iff.2 (hchunks c hc d hd)
  have hflat : ∀ d ∈ chunks.flatten, byteOk d = true := fun d hd =>
    let ⟨c, hc, hdc⟩ := List.mem_flatten.1 hd
    hok c hc d hdc
  obtain ⟨x, hu⟩ := runOps_of_writes (op := .process) (g := fun p r c => processR p r (c.map Int.toNat))
    (fun c hc cfg m => congrArg some (processEffect_ok (hok c hc) cfg m)) he
  obtain ⟨y, hv⟩ := runOps_of_writes (op := .byte) (g := fun p r d => byteR p r d.toNat)
    (fun d hd cfg m => congrArg some (byteEffect_ok (hflat d hd) cfg m)) he
  rw [← processR_flatten] at hu
  rw [← List.foldl_map, ← processR_eq_foldl_byteR] at hv
  exact ⟨_, _, hu, rfl, rfl, exec_process_of_bytes he hflat, rfl, rfl, rfl, _, hv, rfl, rfl, rfl⟩

/-! Reading twice (R76). -/

/-- A checked operation that keeps the register on the operands its check lets through keeps it on all. -/
theorem effectOf_keep {α : Type} (c : Except Error α) (g : α → Response) :
    ∃ x, effectOf c (fun a => .keep (g a)) = .keep x := by
  cases c with
  | ok a => exact ⟨g a, rfl⟩
  | error err => exact ⟨.error err, rfl⟩

/-- The operations that are no writers (R12) keep the register. -/
theorem engineEffect_keep {cfg : Params} {i : Instr} {m : Engine} {f : Effect} (hi : i.writesR = false)
    (hf : engineEffect cfg i m = some f) : ∃ x, f = .keep x := by
  cases i <;> cases hf
  case refl8 d => exact effectOf_keep _ _
  case reflw v => exact effectOf_keep _ _
  case final | value | illegal | finalBytes | finalHex => exact ⟨_, rfl⟩
  case reset | load | byte | process | compute => cases hi

/-- An operation that is neither a writer nor CONSTRUCT leaves the state as it was but for what it hands back. -/
theorem exec_of_reader {s t : State} {i : Instr} (hw : i.writesR = false) (hc : i.isConstruct = false)
    (h : exec i s = .next t) : ∃ x, t = { s with response := x } := by
  obtain ⟨_, _, hi, _⟩ | ⟨_, hi, _⟩ | ⟨e, f, -, -, hf, rfl⟩ := exec_cases h
  · cases hc.symm.trans hi
  · cases hc.symm.trans hi
  · obtain ⟨x, rfl⟩ := engineEffect_keep hw hf
    exact ⟨x, rfl⟩

theorem Effect.apply_of_response (s : State) (x : Response) (f : Effect) :
    f.apply { s with response := x } = f.apply s := by
  cases f with
  | keep y => rfl
  | write v y => simp [Effect.apply]

theorem execConstruct_of_response (s : State) (width : Int) (poly init : Nat) (refin refout : Bool) (xorout : Nat)
    (x : Response) :
    execConstruct width poly init refin refout xorout { s with response := x } =
      execConstruct width poly init refin refout xorout s := by
  unfold execConstruct
  cases checkParams width poly init refin refout xorout with
  | ok p => rfl
  | error err => rfl

/-- No operation reads what an earlier one handed back (R26, R104). -/
theorem exec_of_response (s : State) (i : Instr) (x : Response) : exec i { s with response := x } = exec i s := by
  cases hi : i.isConstruct with
  | true =>
    cases i with
    | construct width poly init refin refout xorout =>
      exact execConstruct_of_response s width poly init refin refout xorout x
    | _ => cases hi
  | false =>
    cases hs : s.current with
    | none => rw [exec_noInstance hs hi, exec_noInstance (s := { s with response := x }) hs hi]
    | some e =>
      obtain ⟨f, hf⟩ := effect_isSome (e := e) hi
      rw [exec_of_effect hs hf, exec_of_effect (s := { s with response := x }) hs hf, Effect.apply_of_response]

/-- Settles O41: the four operations change only the response, and no operation reads it. -/
theorem readingTwiceGivesTheSame : Obligations.ReadingTwiceGivesTheSame := by
  intro s t d v i hi h
  obtain ⟨hw, hc⟩ : i.writesR = false ∧ i.isConstruct = false := by
    obtain rfl | rfl | rfl | rfl := hi <;> exact ⟨rfl, rfl⟩
  obtain ⟨x, rfl⟩ := exec_of_reader hw hc h
  exact ⟨(exec_of_response s i x).trans h, fun j => exec_of_response s j x⟩

end Sys2Proof.Machine

/-! Proofs about the pseudo operations: the fast paths of widths 8, 16 and 32 (O35), and the serialised results FINAL_BYTES
(O45) and FINAL_HEX (O47). -/

namespace Sys2Proof.Machine

/-! The fast paths (R87): from width 8 up nothing is enlarged, and the register of the type's own width follows the working
register of R64 iteration by iteration. -/

theorem enlarge_of_ge {p : Params} (h : 8 ≤ p.width) : enlarge p = 0 := by rw [enlarge_eq]; omega

theorem workWidth_of_ge {p : Params} (h : 8 ≤ p.width) : workWidth p = p.width := by rw [workWidth_eq_max]; omega

theorem polyW_of_ge {p : Params} (h : 8 ≤ p.width) : polyW p = p.poly := by
  rw [polyW, enlarge_of_ge h, Nat.shiftLeft_zero]

/-- With nothing to enlarge, BYTE is one fold of the register itself. -/
theorem byteR_of_ge {p : Params} (h : 8 ≤ p.width) (r d : Nat) : byteR p r d = fold p r (inputByte p d) := by
  rw [byteR, enlarge_of_ge h, Nat.shiftLeft_zero, Nat.shiftRight_zero]

/-- The mask that the type makes is the one that R64 makes. -/
theorem toNat_fastStep {p : Params} (h : 8 ≤ p.width) (t : BitVec p.width) :
    (fastStep (BitVec.ofNat p.width p.poly) t).toNat = foldStep p t.toNat := by
  have hmsb : t.msb = t.toNat.testBit (p.width - 1) := by rw [BitVec.msb_eq_getLsbD_last, BitVec.testBit_toNat]
  rw [foldStep_eq, workWidth_of_ge h, polyW_of_ge h, fastStep, hmsb]
  split
  · rw [BitVec.toNat_xor, BitVec.toNat_shiftLeft, BitVec.toNat_ofNat, Nat.xor_mod_two_pow]
  · exact BitVec.toNat_shiftLeft

/-- A byte aligned with the top of a register loses no bit. -/
theorem toNat_alignByte {n e : Nat} (hn : 8 ≤ n) (he : e < 256) :
    ((BitVec.ofNat 8 e).setWidth n <<< (n - 8)).toNat = e <<< (n - 8) := by
  have hfits : e < 2 ^ n := he.trans_le (Nat.pow_le_pow_right Nat.two_pos hn)
  have haligned : e <<< (n - 8) < 2 ^ n := by
    calc e <<< (n - 8) = e * 2 ^ (n - 8) := Nat.shiftLeft_eq _ _
      _ < 2 ^ 8 * 2 ^ (n - 8) := Nat.mul_lt_mul_of_pos_right he (Nat.two_pow_pos _)
      _ = 2 ^ n := by rw [← Nat.pow_add, Nat.add_sub_cancel' hn]
  rw [BitVec.toNat_shiftLeft, BitVec.toNat_setWidth, BitVec.toNat_ofNat, Nat.mod_eq_of_lt he, Nat.mod_eq_of_lt hfits,
    Nat.mod_eq_of_lt haligned]

theorem toNat_fastFold {p : Params} (h : 8 ≤ p.width) (t : BitVec p.width) {e : Nat} (he : e < 256) :
    (fastFold (BitVec.ofNat p.width p.poly) t (BitVec.ofNat 8 e)).toNat = fold p t.toNat e := by
  have hstep : Function.Semiconj BitVec.toNat (fastStep (BitVec.ofNat p.width p.poly)) (foldStep p) := toNat_fastStep h
  rw [fastFold, hstep.iterate_right 8, BitVec.toNat_xor, toNat_alignByte h he, fold, workWidth_of_ge h]

/-- The fast path's register after each byte is the one that BYTE leaves, at every width that is not enlarged. -/
theorem toNat_fastProcess {p : Params} (h : 8 ≤ p.width) (t : BitVec p.width) {data : List Nat} (hd : ∀ d ∈ data, d < 256) :
    (fastProcess p t data).toNat = processR p t.toNat data := by
  induction data generalizing t with
  | nil => exact (processR_nil p t.toNat).symm
  | cons d ds ih =>
    simp only [List.mem_cons, forall_eq_or_imp] at hd
    obtain ⟨hbyte, hrest⟩ := hd
    rw [processR_cons, byteR_of_ge h, ← toNat_fastFold h t (inputByte_lt p hbyte)]
    exact ih _ hrest

/-- Settles O35: the three widths are not enlarged, and a register in range is the fast path's own. -/
theorem fastPathsAgreeWithTheGeneralEngine : Obligations.FastPathsAgreeWithTheGeneralEngine := by
  intro p r data _ hwidth hr hdata
  have h8 : 8 ≤ p.width := by omega
  rw [toNat_fastProcess h8 _ hdata, BitVec.toNat_ofNat, Nat.mod_eq_of_lt hr]

/-! FINAL_BYTES (R88). -/

/-- Byte `k` of a value. -/
theorem slice_byte (c k : Nat) : slice c (8 * k + 7) (8 * k) = c / 2 ^ (8 * k) % 256 := by
  have hbits : 8 * k + 7 - 8 * k + 1 = 8 := by omega
  simp only [slice, hbits, Nat.shiftRight_eq_div_pow, Nat.reducePow]

theorem byteCount_eq (p : Params) : byteCount p = (p.width + 7) / 8 := Nat.shiftRight_eq_div_pow _ _

@[simp] theorem serialise_big (p : Params) (c : Nat) : serialise p .big c = (serialise p .little c).reverse := rfl

theorem serialise_little (p : Params) (c : Nat) :
    serialise p .little c = (List.range ((p.width + 7) / 8)).map fun k => c / 2 ^ (8 * k) % 256 := by
  simp only [serialise, slice_byte, byteCount_eq]

/-- Settles O45: both orders keep the register and hand back the bytes, which the little-endian sequence lists. -/
theorem finalBytesSerialisesTheResult : Obligations.FinalBytesSerialisesTheResult := by
  intro s e he
  obtain ⟨t, ht, hsamet, hrespt⟩ := exec_of_keep (i := .finalBytes .little) he rfl
  obtain ⟨u, hu, hsameu, hrespu⟩ := exec_of_keep (i := .finalBytes .big) he rfl
  refine ⟨t, u, _, ht, hu, hsamet, hsameu, hrespt, hrespu, ?_, fun k hk => ?_⟩
  · simp [serialise_little]
  · rw [serialise_little, List.length_map, List.length_range] at hk
    simp [serialise_little, hk]

/-! FINAL_HEX (R89). -/

/-- Every element of the sequence is a byte, in either order. -/
theorem lt_of_mem_serialise {p : Params} {order : ByteOrder} {c b : Nat} (hb : b ∈ serialise p order c) : b < 256 := by
  have hlittle : b ∈ serialise p .little c := by
    cases order with
    | little => exact hb
    | big => exact List.mem_reverse.1 hb
  rw [serialise_little] at hlittle
  obtain ⟨k, -, rfl⟩ := List.mem_map.1 hlittle
  exact Nat.mod_lt _ (by decide)

/-- The digits are those of the table, in the case of the style. -/
theorem hexChars_getElem? (style : HexStyle) {n : Nat} (hn : n < 16) :
    (hexChars style.upper)[n]? = some (hexDigit style n) := by
  obtain ⟨upper, lead⟩ := style
  cases upper
  · interval_cases n <;> rfl
  · interval_cases n <;> rfl

/-- The two digits of a byte are its high and its low four bits. -/
theorem hexByte_eq (style : HexStyle) {b : Nat} (hb : b < 256) :
    hexByte style b = [hexDigit style (b / 16), hexDigit style (b % 16)] := by
  have hhigh : slice b 7 4 = b / 16 := by rw [slice, Nat.shiftRight_eq_div_pow]; omega
  have hlow : slice b 3 0 = b % 16 := by simp [slice]
  rw [hexByte, hhigh, hlow]

theorem flatMap_hexByte_length (style : HexStyle) (bs : List Nat) :
    (bs.flatMap (hexByte style)).length = 2 * bs.length := by
  simp [List.length_flatMap, hexByte, Nat.mul_comm]

/-- The digits of byte `k` stand at places `2k` and `2k + 1`. -/
theorem flatMap_hexByte_getElem? (style : HexStyle) {bs : List Nat} {k b : Nat} (hb : b < 256) (hk : bs[k]? = some b) :
    (bs.flatMap (hexByte style))[2 * k]? = some (hexDigit style (b / 16)) ∧
      (bs.flatMap (hexByte style))[2 * k + 1]? = some (hexDigit style (b % 16)) := by
  induction bs generalizing k with
  | nil => simp at hk
  | cons a as ih =>
    rw [List.flatMap_cons]
    cases k with
    | zero =>
      cases hk
      rw [hexByte_eq style hb]
      exact ⟨rfl, rfl⟩
    | succ k => exact ih hk

/-- Settles O47: the register is kept, and the text lists the digits of the bytes that FINAL_BYTES hands back. -/
theorem finalHexWritesTwoDigitsPerByte : Obligations.FinalHexWritesTwoDigitsPerByte := by
  intro s e order he
  obtain ⟨t, ht, -, hrespt⟩ := exec_of_keep (i := .finalBytes order) he rfl
  obtain ⟨u, hu, hsame, hrespu⟩ := exec_of_keep (i := .finalHex order) he rfl
  refine ⟨t, u, _, _, ht, hrespt, hu, hsame, hrespu, flatMap_hexByte_length _ _, fun k b hk => ?_⟩
  have hb : b < 256 := lt_of_mem_serialise (List.mem_of_getElem? hk)
  have hhigh : b / 16 < 16 := by omega
  have hlow : b % 16 < 16 := Nat.mod_lt _ (by decide)
  rw [hexChars_getElem? _ hhigh, hexChars_getElem? _ hlow]
  exact flatMap_hexByte_getElem? _ hb hk

end Sys2Proof.Machine

/-! Proofs about the errors an operand raises: ByteRange (O24, R100), ValueRange (O25, R101) and IllegalCommand (O12, R102). -/

namespace Sys2Proof

/-! What the decoder answers on the two kinds of illegal word (R49, R102). -/

/-- Code 0 is the reserved operation whatever the length of the word (log entry 10). -/
theorem decode_of_op_zero (width : Nat) {w : CmdWord} (h : w.op = 0) : decode width w = .ok (.illegal w) := by
  simp [decode, h]

theorem decode_of_wrongLength {width : Nat} {w : CmdWord} (h0 : w.op ≠ 0)
    (hlen : w.len ≠ formatLength width (formatOf w.op)) : decode width w = .error (.wrongLength w) := by
  simp [decode, h0, hlen]

end Sys2Proof

namespace Sys2Proof.Machine

/-- Settles O24: the check stops at the first offending byte, and COMPUTE's start has passed before it. -/
theorem byteRangeRefusesTheWholeOperand : Obligations.ByteRangeRefusesTheWholeOperand := by
  intro s e good d rest iv he hgood hbad hiv
  have hg : ∀ x ∈ good, byteOk x = true := fun x hx => byteOk_iff.2 (hgood x hx)
  have hd : byteOk d = false := byteOk_eq_false.2 hbad
  exact ⟨exec_of_keep he (congrArg some (processEffect_bad rest hg hd e.params e.engine)),
    exec_of_keep he (congrArg some (computeEffect_badByte rest hiv hg hd e.engine)),
    exec_of_keep he (congrArg some (byteEffect_bad hd e.params e.engine)),
    exec_of_keep he (congrArg some (refl8Effect_bad hd e.params e.engine)), rfl⟩

/-- Settles O25, by the check of the operand; COMPUTE's start is checked before its bytes. -/
theorem valueRangeRefusesTheOperand : Obligations.ValueRangeRefusesTheOperand := fun _ e _ _ he hv =>
  ⟨exec_of_keep he (congrArg some (loadEffect_bad hv e.engine)),
   exec_of_keep he (congrArg some (reflwEffect_bad hv e.engine)),
   exec_of_keep he (congrArg some (computeEffect_badStart hv e.engine)), rfl⟩

/-- Code 0 is refused by its operation, any other word of the wrong length by the decoder; both answer alike. -/
theorem issueWord_of_illegalWord {s : State} {e : Instance} {w : CmdWord} (he : s.current = some e)
    (h : w.op = 0 ∨ w.len ≠ formatLength e.params.width (formatOf w.op)) :
    issueWord w s = .next { s with response := .error (.illegalCommand w) } := by
  by_cases h0 : w.op = 0
  · rw [issueWord_ok he (decode_of_op_zero _ h0)]
    exact exec_of_effect (i := .illegal w) he rfl
  · have hlen := h.resolve_left h0
    rw [issueWord_bad he (decode_of_wrongLength h0 hlen), raise_eq]

/-- Settles O12: the lengths it lists are those of the formats, code by code, and such a word is answered when it is taken. -/
theorem illegalWordsRaiseIllegalCommand : Obligations.IllegalWordsRaiseIllegalCommand := by
  intro s w rest e hpend he hbad
  have hillegal : w.op = 0 ∨ w.len ≠ formatLength e.params.width (formatOf w.op) := by
    have hcode := w.op_lt
    rw [CmdWord.op_eq] at hcode ⊢
    refine hbad.imp_right fun hlen => ?_
    generalize w.bits.toNat % 8 = code at hcode hlen ⊢
    interval_cases code <;> exact hlen
  have hrest : State.current { s with pending := rest } = some e := he
  exact ⟨(step_of_pending_cons hpend).trans (issueWord_of_illegalWord hrest hillegal), rfl⟩

end Sys2Proof.Machine

/-! Proofs about reset: `R` is `INIT` after it (O1), any operation may follow it (O2), and an instance after RESET acts as a
fresh one (O56). -/

namespace Sys2Proof.Machine

@[simp] theorem State.afterReset_current (p : Params) :
    (State.afterReset p).current = some { params := p, engine := { r := p.init } } := rfl

/-! CONSTRUCT answers a next state whatever its constants are (R63). -/

theorem checkParams_ok {width : Int} {poly init : Nat} {xorout : Nat} (refin refout : Bool) (hw : 1 ≤ width)
    (hp : poly < 2 ^ width.toNat) (hi : init < 2 ^ width.toNat) (hx : xorout < 2 ^ width.toNat) :
    checkParams width poly init refin refout xorout = .ok ⟨width.toNat, poly, init, refin, refout, xorout⟩ := by
  rw [checkParams, if_neg (by omega), if_neg (Nat.not_le.2 hp), if_neg (Nat.not_le.2 hi), if_neg (Nat.not_le.2 hx)]

theorem execConstruct_of_checkParams {width : Int} {poly init : Nat} {refin refout : Bool} {xorout : Nat} {p : Params}
    (h : checkParams width poly init refin refout xorout = .ok p) (s : State) :
    execConstruct width poly init refin refout xorout s = addInstance p s := by
  rw [execConstruct, h]

/-- The new instance is the selected one, with `R = INIT`. -/
theorem addInstance_current (p : Params) (s : State) :
    ∃ t, addInstance p s = .next t ∧ t.current = some { params := p, engine := { r := p.init } } :=
  ⟨_, rfl, by simp [State.current]⟩

theorem execConstruct_isNext (width : Int) (poly init : Nat) (refin refout : Bool) (xorout : Nat) (s : State) :
    ∃ t, execConstruct width poly init refin refout xorout s = .next t := by
  unfold execConstruct
  split
  · exact ⟨_, rfl⟩
  · exact ⟨_, rfl⟩

/-- With an instance selected, no operation faults or is refused a meaning. -/
theorem exec_isNext {s : State} {e : Instance} (h : s.current = some e) (i : Instr) : ∃ t, exec i s = .next t := by
  cases hi : i.isConstruct with
  | true =>
    cases i with
    | construct width poly init refin refout xorout => exact execConstruct_isNext width poly init refin refout xorout s
    | _ => cases hi
  | false =>
    obtain ⟨f, hf⟩ := effect_isSome (e := e) hi
    exact ⟨_, exec_of_effect h hf⟩

/-! RESET and LOAD (R69, R70). -/

theorem exec_reset_current {s : State} {e : Instance} (h : s.current = some e) :
    ∃ t, exec .reset s = .next t ∧ t.current = some { params := e.params, engine := { r := e.params.init } } :=
  let ⟨t, ht, _, hwrote⟩ := exec_of_write (i := .reset) h rfl
  ⟨t, ht, hwrote.1⟩

theorem exec_load_current {s : State} {e : Instance} {v : Nat} (h : s.current = some e) (hv : v < 2 ^ e.params.width) :
    ∃ t, exec (.load v) s = .next t ∧ t.current = some { params := e.params, engine := { r := v } } :=
  let ⟨t, ht, _, hwrote⟩ := exec_of_write (i := .load v) h (congrArg some (loadEffect_ok hv e.engine))
  ⟨t, ht, hwrote.1⟩

/-- Settles O1: legal constants pass CONSTRUCT's tests and the instance added holds `INIT`, which RESET also writes. -/
theorem resetValueOfRIsInit : Obligations.ResetValueOfRIsInit := by
  refine ⟨fun p _ => State.afterReset_current p, fun s width poly init refin refout xorout hw hp hi hx => ?_,
    fun s e he => exec_reset_current he⟩
  obtain ⟨t, ht, hcur⟩ := addInstance_current ⟨width.toNat, poly, init, refin, refout, xorout⟩ s
  exact ⟨t, (execConstruct_of_checkParams (checkParams_ok refin refout hw hp hi hx) s).trans ht, hcur⟩

/-- Settles O2: nothing is pending after reset, its one instance is selected, and FINAL reads `INIT` there. -/
theorem anyOperationMayFollowReset : Obligations.AnyOperationMayFollowReset := by
  intro p _
  obtain ⟨t, ht, -, hresp⟩ := exec_of_keep (i := .final) (State.afterReset_current p) rfl
  exact ⟨step_of_pending_nil rfl, exec_isNext (State.afterReset_current p), t, ht, hresp⟩

/-! Operations on two machines whose selected instances agree (R108, R113). -/

theorem exec_of_same_current {s₁ s₂ : State} {e : Instance} {i : Instr} (h₁ : s₁.current = some e)
    (h₂ : s₂.current = some e) (hi : i.isConstruct = false) :
    ∃ t₁ t₂ e', exec i s₁ = .next t₁ ∧ exec i s₂ = .next t₂ ∧ t₁.response = t₂.response ∧ t₁.current = some e' ∧
      t₂.current = some e' := by
  obtain ⟨f, hf⟩ := effect_isSome (e := e) hi
  exact ⟨f.apply s₁, f.apply s₂, _, exec_of_effect h₁ hf, exec_of_effect h₂ hf, by rw [f.apply_response, f.apply_response],
    f.apply_current h₁, f.apply_current h₂⟩

/-- A list stops at an operation that hands back an error (R121). -/
theorem runOps_cons_of_error {i : Instr} {s t : State} {err : Error} (is : List Instr) (h : exec i s = .next t)
    (he : t.response = .error err) :
    runOps (i :: is) s = .next { returned := [], final := t, stopped := some err } := by
  simp [runOps, h, he]

/-- After an operation that hands back no error a list goes on with the rest. -/
theorem runOps_cons_of_no_error {i : Instr} {is : List Instr} {s t : State} {u : Run} (h : exec i s = .next t)
    (hne : ∀ err, t.response ≠ .error err) (hu : runOps is t = .next u) :
    runOps (i :: is) s = .next { u with returned := t.response.returned ++ u.returned } := by
  cases hr : t.response with
  | error err => exact absurd hr (hne err)
  | _ => simp [runOps, h, hr, hu]

/-- A list of operations sees of a machine only its selected instance. -/
theorem runOps_of_same_current {s₁ s₂ : State} {e : Instance} {is : List Instr} (h₁ : s₁.current = some e)
    (h₂ : s₂.current = some e) (his : ∀ i ∈ is, i.isConstruct = false) :
    ∃ u v, runOps is s₁ = .next u ∧ runOps is s₂ = .next v ∧ u.returned = v.returned ∧ u.stopped = v.stopped ∧
      u.final.current = v.final.current := by
  induction is generalizing s₁ s₂ e with
  | nil => exact ⟨_, _, rfl, rfl, rfl, rfl, h₁.trans h₂.symm⟩
  | cons i is ih =>
    simp only [List.mem_cons, forall_eq_or_imp] at his
    obtain ⟨hi, his⟩ := his
    obtain ⟨t₁, t₂, e', ht₁, ht₂, hresp, hcur₁, hcur₂⟩ := exec_of_same_current h₁ h₂ hi
    by_cases herr : ∃ err, t₂.response = .error err
    · obtain ⟨err, herr⟩ := herr
      exact ⟨_, _, runOps_cons_of_error is ht₁ (hresp.trans herr), runOps_cons_of_error is ht₂ herr, rfl, rfl,
        hcur₁.trans hcur₂.symm⟩
    · have hne : ∀ err, t₂.response ≠ .error err := not_exists.1 herr
      obtain ⟨u, v, hu, hv, hret, hstop, hcur⟩ := ih hcur₁ hcur₂ his
      exact ⟨_, _, runOps_cons_of_no_error ht₁ (hresp ▸ hne) hu, runOps_cons_of_no_error ht₂ hne hv,
        congrArg₂ _ (congrArg _ hresp) hret, hstop, hcur⟩

/-- Settles O56: RESET leaves the instance that a reset with its constants makes, and a list sees nothing else; RESET takes
`INIT` from the constants, which LOAD cannot write. -/
theorem resetInstanceActsAsAFreshOne : Obligations.ResetInstanceActsAsAFreshOne := by
  refine ⟨fun s e is he his => ?_, fun s e v he hv => ?_⟩
  · obtain ⟨t, ht, hcur⟩ := exec_reset_current he
    obtain ⟨u, v, hruns⟩ := runOps_of_same_current hcur (State.afterReset_current e.params) his
    exact ⟨t, u, v, ht, hruns⟩
  · obtain ⟨t, ht, hload⟩ := exec_load_current he hv
    obtain ⟨u, hu, hreset⟩ := exec_reset_current hload
    exact ⟨t, u, ht, hu, hreset⟩

end Sys2Proof.Machine

/-! Proofs about the encoding: decode after encode (O9), encode after decode (O10), and the words the spec writes out (O11). -/

namespace Sys2Proof

/-! The decoder on a word of the right length, code by code (R45). -/

section
variable {width : Nat} {w : CmdWord}

theorem decode_reset (hop : w.op = 1) (hlen : w.len = 3) : decode width w = .ok .reset := by
  simp [decode, hop, hlen, formatOf, formatLength]

theorem decode_load (hop : w.op = 2) (hlen : w.len = width + 3) : decode width w = .ok (.load (w.valueField width)) := by
  simp [decode, hop, hlen, formatOf, formatLength]

theorem decode_byte (hop : w.op = 3) (hlen : w.len = 11) : decode width w = .ok (.byte w.byteField) := by
  simp [decode, hop, hlen, formatOf, formatLength]

theorem decode_final (hop : w.op = 4) (hlen : w.len = 3) : decode width w = .ok .final := by
  simp [decode, hop, hlen, formatOf, formatLength]

theorem decode_value (hop : w.op = 5) (hlen : w.len = 3) : decode width w = .ok .value := by
  simp [decode, hop, hlen, formatOf, formatLength]

theorem decode_refl8 (hop : w.op = 6) (hlen : w.len = 11) : decode width w = .ok (.refl8 w.byteField) := by
  simp [decode, hop, hlen, formatOf, formatLength]

theorem decode_reflw (hop : w.op = 7) (hlen : w.len = width + 3) :
    decode width w = .ok (.reflw (w.valueField width)) := by
  simp [decode, hop, hlen, formatOf, formatLength]

end

/-! The word of an operand in range, and the operand read back from it (R43, R44, R47). -/

theorem wordV_of_ok {width v op : Nat} (hv : valueOk width v = true) (ho : op < 8) :
    ∃ w, wordV width v op = some w ∧ w.op = op ∧ w.len = width + 3 ∧ w.valueField width = v := by
  have hfit : v < 2 ^ width := Machine.valueOk_iff.1 hv
  exact ⟨_, if_pos hv, op_withOp hfit ho, rfl, slice_withOp hfit ho⟩

theorem wordB_of_ok {d : Int} {op : Nat} (hd : byteOk d = true) (ho : op < 8) :
    ∃ w, wordB d op = some w ∧ w.op = op ∧ w.len = 11 ∧ (w.byteField : Int) = d := by
  obtain ⟨h0, h255⟩ := Machine.byteOk_iff.1 hd
  have hfit : d.toNat < 2 ^ 8 := by omega
  refine ⟨_, if_pos hd, op_withOp (n := 8) hfit ho, rfl, ?_⟩
  rw [CmdWord.byteField, slice_withOp (n := 8) hfit ho, Int.toNat_of_nonneg h0]

/-- Settles O9, constructor by constructor: the word has the code and the length that the decoder asks for, and its field is
the operand. -/
theorem decodeAfterEncodeIsIdentity : Obligations.DecodeAfterEncodeIsIdentity := by
  intro width i hencodable hwf
  cases i
  case reset | final | value => exact ⟨_, rfl, rfl⟩
  case load v =>
    obtain ⟨w, hw, hop, hlen, hfield⟩ := wordV_of_ok (op := 2) hwf (by decide)
    exact ⟨w, hw, by rw [decode_load hop hlen, hfield]⟩
  case reflw v =>
    obtain ⟨w, hw, hop, hlen, hfield⟩ := wordV_of_ok (op := 7) hwf (by decide)
    exact ⟨w, hw, by rw [decode_reflw hop hlen, hfield]⟩
  case byte d =>
    obtain ⟨w, hw, hop, hlen, hfield⟩ := wordB_of_ok (op := 3) hwf (by decide)
    exact ⟨w, hw, by rw [decode_byte hop hlen, hfield]⟩
  case refl8 d =>
    obtain ⟨w, hw, hop, hlen, hfield⟩ := wordB_of_ok (op := 6) hwf (by decide)
    exact ⟨w, hw, by rw [decode_refl8 hop hlen, hfield]⟩
  case illegal w =>
    have hop : w.op = 0 := w.op_eq.trans (of_decide_eq_true hwf)
    exact ⟨w, if_pos hop, decode_of_op_zero width hop⟩
  case construct | process | compute | finalBytes | finalHex => cases hencodable

/-! The word rebuilt from its code and its field, one lemma per format. -/

/-- An operand field that ends with the word holds every bit above the code. -/
theorem slice_upper {n c : Nat} (hc : c < 2 ^ (n + 3)) : slice c (n + 2) 3 = c / 8 := by
  have hdiv : c / 8 < 2 ^ n := by rw [Nat.pow_add] at hc; omega
  rw [slice, Nat.shiftRight_eq_div_pow]
  exact Nat.mod_eq_of_lt (hdiv.trans_le (Nat.pow_le_pow_right Nat.two_pos (by omega)))

theorem withOp_of_op {w : CmdWord} {op : Nat} (hop : w.op = op) : withOp (w.bits.toNat / 8) op = w.bits.toNat := by
  rw [withOp, ← hop, CmdWord.op_eq]
  omega

theorem wordN_of_op {w : CmdWord} {op : Nat} (hop : w.op = op) (hlen : w.len = 3) : wordN op = w := by
  have hbits : w.bits.toNat < 2 ^ 3 := w.bits_lt hlen
  have hfield : w.bits.toNat / 8 = 0 := by omega
  exact CmdWord.ofNat_eq hlen (hfield ▸ withOp_of_op hop)

theorem wordB_byteField {w : CmdWord} {op : Nat} (hop : w.op = op) (hlen : w.len = 11) :
    wordB w.byteField op = some w := by
  have hbits : w.bits.toNat < 2 ^ 11 := w.bits_lt hlen
  have hfield : w.byteField = w.bits.toNat / 8 := slice_upper (n := 8) hbits
  have hok : byteOk (w.byteField : Int) = true := Machine.byteOk_iff.2 (by omega)
  rw [wordB, if_pos hok, Int.toNat_natCast, hfield, CmdWord.ofNat_eq hlen (withOp_of_op hop)]

theorem wordV_valueField {width op : Nat} {w : CmdWord} (hop : w.op = op) (hlen : w.len = width + 3) :
    wordV width (w.valueField width) op = some w := by
  have hbits : w.bits.toNat < 2 ^ (width + 3) := w.bits_lt hlen
  have hfield : w.valueField width = w.bits.toNat / 8 := slice_upper hbits
  have hok : valueOk width (w.valueField width) = true := by
    rw [Machine.valueOk_iff, hfield]
    rw [Nat.pow_add] at hbits
    omega
  rw [wordV, if_pos hok, hfield, CmdWord.ofNat_eq hlen (withOp_of_op hop)]

/-- What decodes to an operation has code 0, or the length that its code demands. -/
theorem len_of_decode {width : Nat} {w : CmdWord} {i : Instr} (h : decode width w = .ok i) (h0 : w.op ≠ 0) :
    w.len = formatLength width (formatOf w.op) := by
  by_contra hlen
  rw [decode_of_wrongLength h0 hlen] at h
  cases h

/-- Settles O10, code by code: the encoder rebuilds the word from the code and the field that the decoder read. -/
theorem encodeAfterDecodeIsIdentity : Obligations.EncodeAfterDecodeIsIdentity := by
  intro width w i h
  by_cases h0 : w.op = 0
  · cases (decode_of_op_zero width h0).symm.trans h
    exact if_pos h0
  have hlen := len_of_decode h h0
  have hcode := w.op_lt
  generalize hop : w.op = op at hcode h0 hlen
  interval_cases op
  · exact absurd rfl h0
  · cases (decode_reset hop hlen).symm.trans h
    exact congrArg some (wordN_of_op hop hlen)
  · cases (decode_load hop hlen).symm.trans h
    exact wordV_valueField hop hlen
  · cases (decode_byte hop hlen).symm.trans h
    exact wordB_byteField hop hlen
  · cases (decode_final hop hlen).symm.trans h
    exact congrArg some (wordN_of_op hop hlen)
  · cases (decode_value hop hlen).symm.trans h
    exact congrArg some (wordN_of_op hop hlen)
  · cases (decode_refl8 hop hlen).symm.trans h
    exact wordB_byteField hop hlen
  · cases (decode_reflw hop hlen).symm.trans h
    exact wordV_valueField hop hlen

/-- Settles O11: each word has its code and length, and the decoder reads its field. -/
theorem specWordsDecodeToTheirOperations : Obligations.SpecWordsDecodeToTheirOperations :=
  ⟨decode_reset rfl rfl, decode_final rfl rfl, decode_value rfl rfl, decode_byte rfl rfl, decode_refl8 rfl rfl,
    decode_load rfl rfl, decode_reflw rfl rfl, decode_load rfl rfl, decode_of_op_zero 16 rfl⟩

end Sys2Proof

/-! Proofs about every step and every operation: the invariant at reset (O3), what a step runs (O5), no step changes constants
or is stuck (O6, O7, O8), frames and errors (O13, O48 to O52), results (O53), and several instances (O54, O55). -/

namespace Sys2Proof.Machine

/-! Reset and steps (R14, R37, R112, R121). -/

theorem State.Inv.afterReset {p : Params} (hp : p.Legal) : (State.afterReset p).Inv := by
  refine ⟨fun e he => ?_, fun k hk => ?_⟩
  · cases List.mem_singleton.1 he
    exact ⟨hp, init_lt_of_legal hp⟩
  · cases hk
    exact Nat.one_pos

/-- Settles O3: the one instance holds `INIT`, which legal constants have in range, and the build's constants are legal. -/
theorem invariantHoldsAfterReset : Obligations.InvariantHoldsAfterReset :=
  ⟨fun _ hp => .afterReset hp, .afterReset (by decide)⟩

/-- Settles O5, by what each kind of issued command does when it is taken. -/
theorem stepRunsTheIssuedCommand : Obligations.StepRunsTheIssuedCommand := by
  refine ⟨fun s w rest e i hpend he hdec => ?_, fun s i rest hpend => step_of_pending_cons hpend,
    fun s k rest hpend hk => ?_, fun s => step_of_pending_nil⟩
  · have hrest : State.current { s with pending := rest } = some e := he
    rw [step_of_pending_cons hpend]
    exact issueWord_ok hrest hdec
  · rw [step_of_pending_cons hpend]
    exact if_pos hk

/-- An operation keeps every instance in its place with its constants (R14, R116). -/
theorem exec_keeps_constants {s t : State} {i : Instr} {k : Nat} {e : Instance} (h : exec i s = .next t)
    (hk : s.instances[k]? = some e) : ∃ r, t.instances[k]? = some { params := e.params, engine := { r := r } } := by
  obtain ⟨p, -, -, rfl⟩ | ⟨err, -, rfl⟩ | ⟨c, f, -, hc, -, rfl⟩ := exec_cases h
  · exact ⟨e.engine.r, by rw [List.getElem?_append_left (List.getElem?_eq_some_iff.1 hk).1, hk]⟩
  · exact ⟨e.engine.r, hk⟩
  · exact ⟨_, by rw [f.apply_getElem? hc, hk, Option.map_some]⟩

/-- Settles O6: a step that executes an operation keeps the constants, and any other leaves the instances as they are. -/
theorem constantsOfAnInstanceNeverChange : Obligations.ConstantsOfAnInstanceNeverChange := by
  intro s t k e hstep hk
  obtain rfl | ⟨rest, j, -, rfl⟩ | ⟨rest, i, hx⟩ | ⟨rest, w, rfl⟩ := step_cases hstep
  · exact ⟨e.engine.r, hk⟩
  · exact ⟨e.engine.r, hk⟩
  · exact exec_keeps_constants hx hk
  · exact ⟨e.engine.r, hk⟩

/-- Settles O7: an effect on an existing instance answers a next state, and so do both ends of CONSTRUCT. -/
theorem everyOperationCompletes : Obligations.EveryOperationCompletes := by
  refine ⟨fun s e i he => exec_isNext he i, fun s i hs hi => exec_noInstance hs hi, fun s i hi => ?_⟩
  cases i with
  | construct width poly init refin refout xorout => exact execConstruct_isNext width poly init refin refout xorout s
  | _ => cases hi

/-- A command word issued to an existing instance answers a next state, whether it decodes or not. -/
theorem issueWord_isNext {s : State} {e : Instance} (h : s.current = some e) (w : CmdWord) :
    ∃ t, issueWord w s = .next t := by
  obtain ⟨m, x, hs⟩ := engineStepWord_isSome e.params w e.engine
  obtain ⟨t, ht, -⟩ := issueWord_of_engineStepWord h hs
  exact ⟨t, ht⟩

/-- Settles O8, by the kind of the command that is taken. -/
theorem stepCompletesOnAnExistingInstance : Obligations.StepCompletesOnAnExistingInstance := by
  intro s e he hselect
  cases hpend : s.pending with
  | nil => exact ⟨s, step_of_pending_nil hpend⟩
  | cons c rest =>
    have hrest : State.current { s with pending := rest } = some e := he
    rw [step_of_pending_cons hpend]
    cases c with
    | word w => exact issueWord_isNext hrest w
    | call i => exact exec_isNext hrest i
    | select k => exact ⟨_, if_pos (hselect k rest hpend)⟩

/-! Readers and writers (R12). -/

/-- Settles O48: an operation that is neither a writer nor CONSTRUCT changes only the response. -/
theorem readersWriteNothing : Obligations.ReadersWriteNothing := by
  intro s t i hw hc h
  obtain ⟨x, rfl⟩ := exec_of_reader hw hc h
  exact sameButResponse_response s x

theorem isConstruct_of_writesR {i : Instr} (h : i.writesR = true) : i.isConstruct = false := by
  cases i with
  | construct => cases h
  | _ => rfl

/-- Settles O49: a writer is no CONSTRUCT, so it has an effect on the selected engine and on nothing else. -/
theorem writersTouchOnlyR : Obligations.WritersTouchOnlyR := by
  intro s t e i he hw h
  obtain ⟨f, hf⟩ := effect_isSome (e := e) (isConstruct_of_writesR hw)
  cases (exec_of_effect he hf).symm.trans h
  exact ⟨_, f.apply_wroteR he⟩

/-! Errors (R100 to R104): which operations raise one, and that it leaves the engine as it is. -/

/-- On operands in range no operation but the reserved one hands back an error. -/
theorem handsBack_ne_error {cfg : Params} {i : Instr} {m : Engine} {f : Effect} (hf : engineEffect cfg i m = some f)
    (hwf : i.wellFormed cfg.width = true) (hi : i.isIllegal = false) (err : Error) : f.handsBack ≠ .error err := by
  cases i <;> cases hf
  case reset | final | value | finalBytes | finalHex => exact nofun
  case illegal => cases hi
  case load v =>
    rw [loadEffect_ok (valueOk_iff.1 hwf)]
    exact nofun
  case reflw v =>
    rw [reflwEffect_ok (valueOk_iff.1 hwf)]
    exact nofun
  case byte d =>
    rw [byteEffect_ok hwf]
    exact nofun
  case refl8 d =>
    rw [refl8Effect_ok hwf]
    exact nofun
  case process data =>
    rw [processEffect_ok (List.all_eq_true.1 hwf)]
    exact nofun
  case compute data iv =>
    obtain ⟨hdata, hiv⟩ := Bool.and_eq_true_iff.1 hwf
    have hstart : ∀ v, iv = some v → v < 2 ^ cfg.width := fun v hv => valueOk_iff.1 ((Option.all_eq_true _ _).1 hiv v hv)
    rw [computeEffect_ok hstart (List.all_eq_true.1 hdata)]
    exact nofun

/-- A sequence that is not all bytes has a first offending element. -/
theorem exists_first_bad_byte {data : List Int} (h : data.all byteOk = false) :
    ∃ good d rest, data = good ++ d :: rest ∧ (∀ x ∈ good, byteOk x = true) ∧ byteOk d = false :=
  (bytes_split data).resolve_left fun hall => by simp [List.all_eq_true.2 hall] at h

/-- On an operand out of range, and for the reserved code, an operation keeps the register and hands back an error. -/
theorem engineEffect_refuses {cfg : Params} {i : Instr} {m : Engine} {f : Effect} (hf : engineEffect cfg i m = some f)
    (h : i.wellFormed cfg.width = false ∨ i.isIllegal = true) : ∃ err, f = .keep (.error err) := by
  cases i <;> cases hf
  case reset | final | value | finalBytes | finalHex => exact h.elim nofun nofun
  case illegal w => exact ⟨_, rfl⟩
  case load v => exact ⟨_, loadEffect_bad (valueOk_eq_false.1 (h.resolve_right nofun)) m⟩
  case reflw v => exact ⟨_, reflwEffect_bad (valueOk_eq_false.1 (h.resolve_right nofun)) m⟩
  case byte d => exact ⟨_, byteEffect_bad (h.resolve_right nofun) cfg m⟩
  case refl8 d => exact ⟨_, refl8Effect_bad (h.resolve_right nofun) cfg m⟩
  case process data =>
    obtain ⟨good, d, rest, rfl, hgood, hd⟩ := exists_first_bad_byte (h.resolve_right nofun)
    exact ⟨_, processEffect_bad rest hgood hd cfg m⟩
  case compute data iv =>
    cases hiv : iv.all (valueOk cfg.width) with
    | false =>
      obtain ⟨v, rfl, hv⟩ := (Option.all_eq_false _ _).1 hiv
      exact ⟨_, computeEffect_badStart (valueOk_eq_false.1 hv) m⟩
    | true =>
      have hstart : ∀ v, iv = some v → v < 2 ^ cfg.width := fun v hv =>
        valueOk_iff.1 ((Option.all_eq_true _ _).1 hiv v hv)
      have hdata : data.all byteOk = false := by simpa [Instr.wellFormed, Instr.isIllegal, hiv] using h
      obtain ⟨good, d, rest, rfl, hgood, hd⟩ := exists_first_bad_byte hdata
      exact ⟨_, computeEffect_badByte rest hstart hgood hd m⟩

theorem handsBack_error_iff {cfg : Params} {i : Instr} {m : Engine} {f : Effect} (hf : engineEffect cfg i m = some f) :
    (∃ err, f.handsBack = .error err) ↔ (i.wellFormed cfg.width = false ∨ i.isIllegal = true) := by
  refine ⟨fun ⟨err, herr⟩ => ?_, fun h => ?_⟩
  · by_contra hgood
    rw [not_or, Bool.not_eq_false, Bool.not_eq_true] at hgood
    exact handsBack_ne_error hf hgood.1 hgood.2 err herr
  · obtain ⟨err, rfl⟩ := engineEffect_refuses hf h
    exact ⟨err, rfl⟩

/-- An effect that hands back an error keeps the register (R104). -/
theorem engineEffect_keep_of_error {cfg : Params} {i : Instr} {m : Engine} {f : Effect} {err : Error}
    (hf : engineEffect cfg i m = some f) (h : f.handsBack = .error err) : ∃ x, f = .keep x :=
  let ⟨_, hkeep⟩ := engineEffect_refuses hf ((handsBack_error_iff hf).1 ⟨err, h⟩)
  ⟨_, hkeep⟩

/-- Settles O50: an operation with an error keeps the register, and a failed CONSTRUCT only takes the selection away. -/
theorem errorsHaveNoEffect : Obligations.ErrorsHaveNoEffect := by
  intro s t i err h herr
  obtain ⟨p, -, -, rfl⟩ | ⟨_, hi, rfl⟩ | ⟨e, f, hi, -, hf, rfl⟩ := exec_cases h
  · cases herr
  · exact ⟨rfl, rfl, fun hc => absurd (hi.symm.trans hc) nofun, fun _ j hj => exec_noInstance rfl hj⟩
  · obtain ⟨x, rfl⟩ := engineEffect_keep_of_error hf ((f.apply_response s).symm.trans herr)
    exact ⟨rfl, rfl, fun _ => rfl, fun hc => absurd (hi.symm.trans hc) nofun⟩

/-- CONSTRUCT is well formed exactly when the tests of R63 pass. -/
theorem construct_wellFormed_iff {width : Int} {poly init : Nat} {refin refout : Bool} {xorout n : Nat} :
    (Instr.construct width poly init refin refout xorout).wellFormed n = true ↔
      ∃ p, checkParams width poly init refin refout xorout = .ok p := by
  simp only [Instr.wellFormed, Bool.and_eq_true, decide_eq_true_eq, valueOk_iff]
  refine ⟨fun ⟨⟨⟨hw, hp⟩, hi⟩, hx⟩ => ⟨_, checkParams_ok refin refout hw hp hi hx⟩, fun ⟨p, h⟩ => ?_⟩
  unfold checkParams at h
  split_ifs at h with hw hp hi hx
  omega

theorem exec_construct_error_iff (s : State) {width : Int} {poly init : Nat} {refin refout : Bool} {xorout n : Nat} :
    (∃ t err, exec (.construct width poly init refin refout xorout) s = .next t ∧ t.response = .error err) ↔
      (Instr.construct width poly init refin refout xorout).wellFormed n = false := by
  rw [← Bool.not_eq_true, construct_wellFormed_iff, exec, execConstruct]
  cases checkParams width poly init refin refout xorout with
  | ok p => simp [addInstance]
  | error err => simp [failConstruct]

/-- Settles O51: for CONSTRUCT by its tests, for any other operation by its effect on the selected engine. -/
theorem errorsComeExactlyFromIllFormedOperations : Obligations.ErrorsComeExactlyFromIllFormedOperations := by
  intro s e i he
  cases hi : i.isConstruct with
  | true =>
    cases i with
    | construct => simpa [Instr.isIllegal] using exec_construct_error_iff s
    | _ => cases hi
  | false =>
    obtain ⟨f, hf⟩ := effect_isSome (e := e) hi
    rw [← handsBack_error_iff hf, exec_of_effect he hf]
    simp

/-- Settles O52: every operation reads the selected instance and not the response. -/
theorem noOperationReadsTheResponse : Obligations.NoOperationReadsTheResponse := exec_of_response

/-- Settles O13: the reserved operation keeps the register and hands back its error. -/
theorem reservedCodeRaisesIllegalCommand : Obligations.ReservedCodeRaisesIllegalCommand := fun _ _ w he =>
  exec_of_keep (i := .illegal w) he rfl

/-! Results (R48, R57, R67). -/

/-- A checked operation returns a value only on an operand that its check lets through. -/
theorem effectOf_value {α : Type} {c : Except Error α} {g : α → Effect} {v : Nat}
    (h : (effectOf c g).handsBack = .value v) : ∃ a, c = .ok a ∧ (g a).handsBack = .value v := by
  cases c with
  | ok a => exact ⟨a, rfl, h⟩
  | error err => cases h

theorem refl8Effect_value_lt {d : Int} {cfg : Params} {m : Engine} {v : Nat}
    (h : (refl8Effect d cfg m).handsBack = .value v) : v < 2 ^ 8 := by
  obtain ⟨b, -, hb⟩ := effectOf_value h
  cases hb
  exact lutRead_lt b

/-- An integer result of an operation other than REFL8 fits in `WIDTH` bits. -/
theorem engineEffect_value_lt {e : Instance} (he : e.Ok) {i : Instr} {f : Effect} {v : Nat} (hi : ∀ d, i ≠ .refl8 d)
    (hf : engineEffect e.params i e.engine = some f) (h : f.handsBack = .value v) : v < 2 ^ e.params.width := by
  have ⟨hp, hr⟩ := he
  cases i <;> cases hf
  case reset | illegal | finalBytes | finalHex => cases h
  case load | byte | process =>
    obtain ⟨a, -, ha⟩ := effectOf_value h
    cases ha
  case refl8 d => exact absurd rfl (hi d)
  case final =>
    cases h
    exact finalValue_lt hp hr
  case value =>
    cases h
    exact hr
  case reflw w =>
    obtain ⟨a, -, ha⟩ := effectOf_value h
    cases ha
    exact reflectBits_lt _ _
  case compute data iv =>
    obtain ⟨r₀, hr₀, hdata⟩ := effectOf_value h
    obtain ⟨bs, -, hbs⟩ := effectOf_value hdata
    cases hbs
    exact finalValue_lt hp (processR_lt _ bs (checkStart_lt hp hr₀))

/-- Settles O53: REFL8 returns a table entry, and any other result is a register or a reflection at the width. -/
theorem resultsFitTheirWidths : Obligations.ResultsFitTheirWidths := by
  intro s t e i v he hinv h hresp
  have hok := hinv.current_ok he
  refine ⟨fun hi => ?_, ?_⟩
  · obtain ⟨p, -, -, rfl⟩ | ⟨err, -, rfl⟩ | ⟨c, f, -, hc, hf, rfl⟩ := exec_cases h
    · cases hresp
    · cases hresp
    · cases he.symm.trans hc
      exact engineEffect_value_lt hok hi hf ((f.apply_response s).symm.trans hresp)
  · rintro d rfl
    cases (exec_of_effect (i := .refl8 d) he rfl).symm.trans h
    exact refl8Effect_value_lt ((Effect.apply_response s _).symm.trans hresp)

/-! Several instances (R108, R116). -/

/-- The machine with the instance `k` as the selected one, as a `select` of it leaves it (`selectInstance`). -/
def State.turnTo (s : State) (k : Nat) : State := { s with sel := some k }

@[simp] theorem State.turnTo_current (s : State) (k : Nat) : (s.turnTo k).current = s.instances[k]? := rfl

@[simp] theorem State.turnTo_instances (s : State) (k : Nat) : (s.turnTo k).instances = s.instances := rfl

@[simp] theorem State.turnTo_sel (s : State) (k : Nat) : (s.turnTo k).sel = some k := rfl

/-- Two operations on two instances: each hands back what its effect on its own engine does, and writes its own register. -/
theorem exec_on_two_instances {s : State} {a b : Nat} {ea eb : Instance} {i j : Instr} {f g : Effect} (hab : a ≠ b)
    (ha : s.instances[a]? = some ea) (hb : s.instances[b]? = some eb) (hf : engineEffect ea.params i ea.engine = some f)
    (hg : engineEffect eb.params j eb.engine = some g) :
    ∃ t₁ t₂, exec i (s.turnTo a) = .next t₁ ∧ exec j (t₁.turnTo b) = .next t₂ ∧
      t₁.response = f.handsBack ∧ t₂.response = g.handsBack ∧
      ∀ k, t₂.instances[k]? = s.instances[k]?.map fun x => Instance.mk x.params
        { r := if k = b then g.newR eb else if k = a then f.newR ea else x.engine.r } := by
  have hcur₁ : (s.turnTo a).current = some ea := ha
  have hcur₂ : ((f.apply (s.turnTo a)).turnTo b).current = some eb :=
    (f.apply_other (s := s.turnTo a) (by simpa using hab)).trans hb
  refine ⟨_, _, exec_of_effect hcur₁ hf, exec_of_effect hcur₂ hg, f.apply_response _, g.apply_response _, fun k => ?_⟩
  rw [g.apply_getElem? hcur₂, State.turnTo_instances, f.apply_getElem? hcur₁, Option.map_map]
  simp only [State.turnTo_instances, State.turnTo_sel, Function.comp_def, Option.some.injEq, eq_comm]

/-- Settles O54: in either order each operation meets its own instance untouched by the other. -/
theorem operationsOnDifferentInstancesCommute : Obligations.OperationsOnDifferentInstancesCommute := by
  intro s a b ea eb i j hab ha hb hi hj
  obtain ⟨f, hf⟩ := effect_isSome (e := ea) hi
  obtain ⟨g, hg⟩ := effect_isSome (e := eb) hj
  obtain ⟨t₁, t₂, ht₁, ht₂, hrt₁, hrt₂, ht⟩ := exec_on_two_instances hab ha hb hf hg
  obtain ⟨u₁, u₂, hu₁, hu₂, hru₁, hru₂, hu⟩ := exec_on_two_instances hab.symm hb ha hg hf
  refine ⟨t₁, t₂, u₁, u₂, ht₁, ht₂, hu₁, hu₂, List.ext_getElem? fun k => ?_, hrt₁.trans hru₂.symm, hrt₂.trans hru₁.symm⟩
  rw [ht, hu]
  by_cases hka : k = a
  · subst hka
    simp [hab]
  · simp [hka]

/-- Settles O55: the operation has the same effect on both selected engines. -/
theorem anOperationDependsOnItsInstanceAlone : Obligations.AnOperationDependsOnItsInstanceAlone := by
  intro s₁ s₂ e i h₁ h₂ hi
  obtain ⟨t₁, t₂, e', ht₁, ht₂, hresp, hcur₁, hcur₂⟩ := exec_of_same_current h₁ h₂ hi
  exact ⟨t₁, t₂, ht₁, ht₂, hresp, hcur₁.trans hcur₂.symm⟩

end Sys2Proof.Machine

/-! Proofs about BYTE as arithmetic over GF(2): the bit-serial shift register (O33) and the polynomial remainder (O32). -/

namespace Sys2Proof.Machine

/-! The bit-serial shift register (R31). -/

theorem work_zero (p : Params) (r : Nat) {e : Nat} (he : e < 256) :
    work p r e 0 = (r <<< enlarge p) ^^^ (e <<< (workWidth p - 8)) := by
  rw [work, Nat.shiftLeft_zero, Nat.mod_eq_of_lt he]

/-- Once all eight bits are consumed the working register is the enlarged shift register. -/
theorem work_eight (p : Params) (r e : Nat) : work p r e 8 = r <<< enlarge p := by
  have hgone : (e <<< 8) % 256 = 0 := by rw [Nat.shiftLeft_eq]; exact Nat.mul_mod_left e 256
  rw [work, hgone, Nat.zero_shiftLeft, Nat.xor_zero]

/-- BYTE feeds its input byte to the shift register of R31, whatever the width. -/
theorem byteR_eq_serialByte {p : Params} {r d : Nat} (hp : p.Legal) (hr : r < 2 ^ p.width) (hd : d < 256) :
    byteR p r d = serialByte p r (inputByte p d) := by
  have hrun := (iterate_foldStep_work p hp r (inputByte p d) 8 hr (by decide)).1
  rw [byteR, fold, ← work_zero p r (inputByte_lt p hd), hrun, work_eight, shiftLeft_shiftRight]
  rfl

/-- Settles O33: the iterations of the fold consume the byte's bits from bit 7 down, and the table holds reflected bytes. -/
theorem byteIsBitSerialMsbFirst : Obligations.ByteIsBitSerialMsbFirst := by
  intro p r d hp hr hd
  rw [byteR_eq_serialByte hp hr hd, inputByte, lutRead_eq_reflectByte hd]

/-! Registers as polynomials over GF(2) (41_crc_engine.md section 5). -/

open Polynomial

/-- A bit as an element of GF(2). -/
def gf2 (b : Bool) : ZMod 2 := if b then 1 else 0

@[simp] theorem gf2_false : gf2 false = 0 := rfl

@[simp] theorem gf2_true : gf2 true = 1 := rfl

theorem gf2_xor (a b : Bool) : gf2 (a ^^ b) = gf2 a + gf2 b := by revert a b; decide

theorem gf2_and (a b : Bool) : gf2 (a && b) = gf2 a * gf2 b := by revert a b; decide

/-- The polynomial whose coefficients are the bits of `v` below `n`. -/
noncomputable def bitPoly (n v : Nat) : (ZMod 2)[X] := ∑ i ∈ Finset.range n, if v.testBit i then X ^ i else 0

theorem testBit_of_width_le {w v i : Nat} (hv : v < 2 ^ w) (hi : w ≤ i) : v.testBit i = false :=
  Nat.testBit_lt_two_pow (hv.trans_le (Nat.pow_le_pow_right Nat.two_pos hi))

theorem coeff_bitPoly {n v : Nat} (hv : v < 2 ^ n) (j : Nat) : (bitPoly n v).coeff j = gf2 (v.testBit j) := by
  have hterm : ∀ i, (if v.testBit i then (X : (ZMod 2)[X]) ^ i else 0).coeff j =
      if j = i then gf2 (v.testBit i) else 0 := by
    intro i
    cases v.testBit i <;> simp [coeff_X_pow]
  simp only [bitPoly, finsetSum_coeff, hterm, Finset.sum_ite_eq, Finset.mem_range]
  by_cases hj : j < n
  · simp [hj]
  · simp [hj, testBit_of_width_le hv (Nat.not_lt.1 hj)]

theorem degree_bitPoly_lt {n w v : Nat} (hwn : w ≤ n) (hv : v < 2 ^ w) : (bitPoly n v).degree < w := by
  rw [degree_lt_iff_coeff_zero]
  intro m hm
  rw [coeff_bitPoly (hv.trans_le (Nat.pow_le_pow_right Nat.two_pos hwn)),
    testBit_of_width_le hv hm, gf2_false]

/-- The generator `G = x^WIDTH + POLY`. -/
noncomputable def generator (n : Nat) (p : Params) : (ZMod 2)[X] := X ^ p.width + bitPoly n p.poly

theorem poly_lt_of_legal {p : Params} (hp : p.Legal) : p.poly < 2 ^ p.width := hp.2.1

theorem generator_monic {n : Nat} {p : Params} (hp : p.Legal) (hn : p.width ≤ n) : (generator n p).Monic :=
  monic_X_pow_add (degree_bitPoly_lt hn (poly_lt_of_legal hp))

theorem generator_degree {n : Nat} {p : Params} (hp : p.Legal) (hn : p.width ≤ n) :
    (generator n p).degree = p.width := by
  have hpoly : (bitPoly n p.poly).degree < (X ^ p.width : (ZMod 2)[X]).degree := by
    rw [degree_X_pow]
    exact degree_bitPoly_lt hn (poly_lt_of_legal hp)
  rw [generator, degree_add_eq_left_of_degree_lt hpoly, degree_X_pow]

/-- The bit fed and the top bit, XORed: whether the shift register subtracts the generator. -/
def feedback (p : Params) (r : Nat) (b : Bool) : Bool := r.testBit (p.width - 1) ^^ b

theorem coeff_X_mul_bitPoly {n v : Nat} (hv : v < 2 ^ n) (j : Nat) :
    (X * bitPoly n v).coeff j = gf2 (decide (1 ≤ j) && v.testBit (j - 1)) := by
  cases j with
  | zero => simp
  | succ j => simp [coeff_X_mul, coeff_bitPoly hv]

/-- Feeding one bit multiplies the register by `x`, adds the bit at the top, and subtracts the generator on feedback. -/
theorem bitPoly_serialBit {n : Nat} {p : Params} {r : Nat} (hp : p.Legal) (hn : p.width ≤ n) (hr : r < 2 ^ p.width)
    (b : Bool) :
    bitPoly n (serialBit p r b) =
      X * bitPoly n r + C (gf2 b) * X ^ p.width + C (gf2 (feedback p r b)) * generator n p := by
  have ⟨hw, hpoly, _⟩ := hp
  have hfits : 2 ^ p.width ≤ 2 ^ n := Nat.pow_le_pow_right Nat.two_pos hn
  ext j
  have hbit : (serialBit p r b).testBit j = (decide (j < p.width) &&
      ((decide (1 ≤ j) && r.testBit (j - 1)) ^^ (feedback p r b && p.poly.testBit j))) := testBit_serialBit p hp r b j
  simp only [generator, coeff_add, coeff_C_mul, coeff_X_pow, coeff_X_mul_bitPoly (hr.trans_le hfits),
    coeff_bitPoly (hpoly.trans_le hfits), coeff_bitPoly ((serialBit_lt p hp r b).trans_le hfits), hbit]
  obtain hj | rfl | hj := Nat.lt_trichotomy j p.width
  · simp [hj, hj.ne, gf2_xor, gf2_and]
  · have htop : p.poly.testBit p.width = false := testBit_of_width_le hpoly le_rfl
    have hcancel : ∀ x : ZMod 2, x + x = 0 := CharTwo.add_self_eq_zero
    simp [feedback, htop, hw, gf2_xor, hcancel]
  · have hr' : r.testBit (j - 1) = false := testBit_of_width_le hr (by omega)
    have hpoly' : p.poly.testBit j = false := testBit_of_width_le hpoly hj.le
    simp [hj.not_gt, hj.ne', hr', hpoly']

/-- The top `k` bits of a byte, with one bit more. -/
theorem bitPoly_top_succ {n e k : Nat} (hn : 8 ≤ n) (he : e < 256) (hk : k < 8) :
    bitPoly n (e >>> (8 - (k + 1))) = X * bitPoly n (e >>> (8 - k)) + C (gf2 (e.testBit (7 - k))) := by
  have hfits : ∀ m, e >>> m < 2 ^ n := fun m =>
    ((Nat.shiftRight_le e m).trans_lt he).trans_le (Nat.pow_le_pow_right Nat.two_pos hn)
  ext j
  rw [coeff_add, coeff_X_mul_bitPoly (hfits _), coeff_bitPoly (hfits _), coeff_C, Nat.testBit_shiftRight]
  cases j with
  | zero => simp [show 8 - (k + 1) = 7 - k by omega]
  | succ j =>
    rw [show 8 - (k + 1) + (j + 1) = 8 - k + j by omega]
    simp [Nat.testBit_shiftRight]

/-- After `k` bits of the byte `e` the shift register is, up to a multiple of the generator, the register moved up by `k` places
plus the bits fed, moved up by `WIDTH`. -/
theorem generator_dvd_serial {n : Nat} {p : Params} {r e k : Nat} (hp : p.Legal) (hn : p.width ≤ n) (h8 : 8 ≤ n)
    (hr : r < 2 ^ p.width) (he : e < 256) (hk : k ≤ 8) :
    generator n p ∣ bitPoly n ((List.range k).foldl (fun r i => serialBit p r (e.testBit (7 - i))) r) -
      (bitPoly n r * X ^ k + bitPoly n (e >>> (8 - k)) * X ^ p.width) := by
  induction k with
  | zero =>
    have hnone : bitPoly n (e >>> 8) = 0 := by simp [bitPoly, Nat.shiftRight_eq_zero e 8 he]
    simp [hnone]
  | succ k ih =>
    obtain ⟨q, hq⟩ := ih (by omega)
    have hreg := (iterate_foldStep_work p hp r e k hr (by omega)).2
    rw [List.range_succ, List.foldl_append, List.foldl_cons, List.foldl_nil, bitPoly_serialBit hp hn hreg,
      bitPoly_top_succ h8 he (by omega), eq_add_of_sub_eq hq]
    exact ⟨X * q + C (gf2 (feedback p _ _)), by ring⟩

/-- BYTE leaves the remainder: it is congruent to the polynomial, and a register is below the generator's degree. -/
theorem bitPoly_byteR {n : Nat} {p : Params} {r d : Nat} (hp : p.Legal) (hn : p.width ≤ n) (h8 : 8 ≤ n)
    (hr : r < 2 ^ p.width) (hd : d < 256) :
    bitPoly n (byteR p r d) =
      (bitPoly n r * X ^ 8 + bitPoly n (inputByte p d) * X ^ p.width) %ₘ generator n p := by
  have hmonic := generator_monic hp hn
  have hdeg : (bitPoly n (byteR p r d)).degree < (generator n p).degree := by
    rw [generator_degree hp hn]
    exact degree_bitPoly_lt hn (byteR_lt p r d)
  have hdvd : generator n p ∣
      bitPoly n (byteR p r d) - (bitPoly n r * X ^ 8 + bitPoly n (inputByte p d) * X ^ p.width) := by
    rw [byteR_eq_serialByte hp hr hd]
    exact generator_dvd_serial hp hn h8 hr (inputByte_lt p hd) le_rfl
  rw [← modByMonic_eq_of_dvd_sub hmonic hdvd, (modByMonic_eq_self_iff hmonic).2 hdeg]

/-- Settles O32: reading the bits below `max(WIDTH, 8)` reads the whole register and the whole byte. -/
theorem byteIsPolynomialRemainder : Obligations.ByteIsPolynomialRemainder := fun p r d hp hr hd =>
  ⟨byteR_lt p r d, bitPoly_byteR hp (le_max_left _ _) (le_max_right _ _) hr hd⟩

end Sys2Proof.Machine

/-! Proofs about operations on data and lists of operations: PROCESS and COMPUTE with their expansions (O23, O37, O39, O40) and
check values (O42), LOAD (O29, O57), where a list stops (O43, O44), and the serialised bytes read back (O46). -/

namespace Sys2Proof.Machine

/-! PROCESS and LOAD (R66, R70). -/

/-- The statements' list of integers, where Lean reads the coercion of a list as a bind, is the cast of each element. -/
theorem coe_list_eq_map_cast (data : List Nat) : (data.map fun d => (d : Int)) = List.map Nat.cast data := by
  simp [List.map_eq_flatMap]

theorem byteOk_cast {data : List Nat} (h : ∀ d ∈ data, d < 256) : ∀ x ∈ data.map Nat.cast, byteOk x = true := by
  intro x hx
  obtain ⟨d, hd, rfl⟩ := List.mem_map.1 hx
  have hlt := h d hd
  exact byteOk_iff.2 (by omega)

theorem map_toNat_cast (data : List Nat) : (data.map Nat.cast).map Int.toNat = data := by
  simp [Function.comp_def]

/-- PROCESS of one byte is BYTE: the same byte is checked, at the same index, and folded between the same enlargements. -/
theorem processEffect_singleton (d : Int) : processEffect [d] = byteEffect d := by
  funext cfg m
  cases hd : byteOk d with
  | true =>
    rw [processEffect_ok (by simpa using hd), byteEffect_ok hd]
    rfl
  | false => exact (processEffect_bad (good := []) [] (by simp) hd cfg m).trans (byteEffect_bad hd cfg m).symm

/-- Settles O23: the checked bytes are the data, and PROCESS of one byte has the effect of BYTE. -/
theorem processFoldsTheSequence : Obligations.ProcessFoldsTheSequence := by
  refine ⟨fun s e data he hdata => ?_, fun s d => congrArg (onEngine s) (processEffect_singleton d)⟩
  have heffect := processEffect_ok (byteOk_cast hdata) e.params e.engine
  rw [map_toNat_cast] at heffect
  rw [coe_list_eq_map_cast]
  exact exec_of_write he (congrArg some heffect)

/-- Two writes in a row change the register as the second one says. -/
theorem WroteR.trans {e : Instance} {v w : Nat} {s t u : State} (h : WroteR e v s t)
    (h' : WroteR { params := e.params, engine := { r := v } } w t u) : WroteR e w s u := by
  obtain ⟨-, hsel, hpend, hlen, hother⟩ := h
  obtain ⟨hcur', hsel', hpend', hlen', hother'⟩ := h'
  exact ⟨hcur', hsel'.trans hsel, hpend'.trans hpend, hlen'.trans hlen,
    fun k hk => (hother' k (hsel ▸ hk)).trans (hother k hk)⟩

/-- Settles O29: LOAD writes the register and no constant, so that RESET after it writes `INIT`. -/
theorem loadWritesItsOperand : Obligations.LoadWritesItsOperand := by
  refine fun s e v he => ⟨fun hv => ?_, fun hv => exec_of_keep he (congrArg some (loadEffect_bad hv e.engine))⟩
  obtain ⟨t, ht, hresp, hload⟩ := exec_of_write (i := .load v) he (congrArg some (loadEffect_ok hv e.engine))
  have ⟨hcur, _⟩ := hload
  obtain ⟨u, hu, -, hreset⟩ := exec_of_write (i := .reset) hcur rfl
  exact ⟨t, u, ht, hresp, hload, hu, hload.trans hreset⟩

/-- Settles O57: VALUE keeps its instance, a register in range loads, and a list sees only the selected instance. -/
theorem valueThenLoadTransfersAComputation : Obligations.ValueThenLoadTransfersAComputation := by
  intro s₁ s₂ e₁ e₂ is he₁ he₂ hinv hparams his
  obtain ⟨-, hr⟩ := hinv.current_ok he₁
  obtain ⟨t₂, ht₂, hcur₂⟩ := exec_load_current he₂ (hparams ▸ hr)
  have hkept : State.current { s₁ with response := .value e₁.engine.r } = some e₁ := he₁
  have hsame : t₂.current = some e₁ := by rw [hcur₂, ← hparams]
  obtain ⟨u, v, hu, hv, hruns⟩ := runOps_of_same_current hkept hsame his
  exact ⟨_, _, t₂, u, v, exec_of_effect (i := .value) he₁ rfl, rfl, ht₂, hu, hv, hruns⟩

/-! COMPUTE (R79, R86). -/

/-- Settles O39, by the checks of the start value and of the data. -/
theorem computeStartsProcessesAndFinalizes : Obligations.ComputeStartsProcessesAndFinalizes := by
  intro s e data iv he hdata hiv
  have heffect := computeEffect_ok hiv (byteOk_cast hdata) e.engine
  rw [map_toNat_cast] at heffect
  rw [coe_list_eq_map_cast]
  obtain ⟨t, ht, hresp, hwrote⟩ := exec_of_write (i := .compute _ iv) he (congrArg some heffect)
  exact ⟨t, _, ht, rfl, hresp, hwrote⟩

/-- COMPUTE of "123456789" returns the check value of the constants in place. -/
theorem exec_compute_digits19 {p : Params} {c : Nat}
    (h : finalValue p (processR p p.init (digits19.map Int.toNat)) = c) :
    ∃ t, exec (.compute digits19 none) (State.afterReset p) = .next t ∧ t.response = .value c := by
  have hdigits : ∀ d ∈ digits19, byteOk d = true := by decide
  have heffect := computeEffect_ok (iv := none) (cfg := p) nofun hdigits (Engine.fresh p)
  obtain ⟨t, ht, hresp, -⟩ := exec_of_write (i := .compute digits19 none) (State.afterReset_current p) (congrArg some heffect)
  exact ⟨t, ht, hresp.trans (congrArg Response.value h)⟩

/-- Settles O42: the engine of each parameter set, evaluated on the nine digits. -/
theorem knownCheckValues : Obligations.KnownCheckValues :=
  ⟨exec_compute_digits19 (by decide +kernel), exec_compute_digits19 (by decide +kernel),
    exec_compute_digits19 (by decide +kernel), exec_compute_digits19 (by decide +kernel),
    exec_compute_digits19 (by decide +kernel)⟩

/-! The expansions of PROCESS and COMPUTE (R85, R86). -/

/-- The BYTE operations that PROCESS expands to leave the register that it writes. -/
theorem runOps_bytes {s : State} {e : Instance} {data : List Int} (h : s.current = some e)
    (hd : ∀ d ∈ data, byteOk d = true) :
    ∃ x, runOps (data.map .byte) s = .next
      { returned := []
        final := { writeR (processR e.params e.engine.r (data.map Int.toNat)) s with response := x }
        stopped := none } := by
  obtain ⟨x, hrun⟩ := runOps_of_writes (op := .byte) (g := fun p r d => byteR p r d.toNat)
    (fun d hmem cfg m => congrArg some (byteEffect_ok (hd d hmem) cfg m)) h
  rw [← List.foldl_map, ← processR_eq_foldl_byteR] at hrun
  exact ⟨x, hrun⟩

/-- Settles O37: the bytes written one by one leave what PROCESS writes at once. -/
theorem processEqualsItsByteExpansion : Obligations.ProcessEqualsItsByteExpansion := by
  intro s e data he _ hdata
  have hd : ∀ d ∈ data, byteOk d = true := fun d hmem => byteOk_iff.2 (hdata d hmem)
  obtain ⟨x, hrun⟩ := runOps_bytes he hd
  exact ⟨_, _, hrun, rfl, rfl, exec_process_of_bytes he hd, rfl, rfl, rfl⟩

/-- A list that runs to its end, followed by one that answers. -/
theorem runOps_append_of_next {xs ys : List Instr} {s : State} {u v : Run} (h : runOps xs s = .next u)
    (hn : u.stopped = none) (hv : runOps ys u.final = .next v) :
    runOps (xs ++ ys) s = .next { v with returned := u.returned ++ v.returned } := by
  rw [runOps_append ys h hn, hv]

/-- The first operation of COMPUTE's expansion writes the start value. -/
theorem engineEffect_startOp {cfg : Params} {iv : Option Nat} (h : ∀ v, iv = some v → v < 2 ^ cfg.width) (m : Engine) :
    engineEffect cfg (startOp iv) m = some (.write (iv.getD cfg.init) .done) := by
  cases iv with
  | none => rfl
  | some v => exact congrArg some (loadEffect_ok (h v rfl) m)

/-- FINAL alone returns the finalization of the register. -/
theorem runOps_final {s : State} {e : Instance} (h : s.current = some e) :
    runOps [.final] s = .next
      { returned := [.value (finalValue e.params e.engine.r)]
        final := { s with response := .value (finalValue e.params e.engine.r) }
        stopped := none } :=
  runOps_cons_of_no_error (is := []) (u := { returned := [], final := _, stopped := none })
    (exec_of_effect (i := .final) h rfl) nofun rfl

/-- The bytes and FINAL after them leave the processed register and return its finalization. -/
theorem runOps_bytes_final {s : State} {e : Instance} {data : List Int} (h : s.current = some e)
    (hd : ∀ d ∈ data, byteOk d = true) :
    let r := processR e.params e.engine.r (data.map Int.toNat)
    runOps (data.map .byte ++ [.final]) s = .next
      { returned := [.value (finalValue e.params r)]
        final := { writeR r s with response := .value (finalValue e.params r) }
        stopped := none } := by
  obtain ⟨x, hbytes⟩ := runOps_bytes h hd
  exact runOps_append_of_next hbytes rfl
    (runOps_final (e := { params := e.params, engine := { r := _ } }) (writeR_current _ h))

/-- A write after another leaves only the last one in the registers. -/
theorem writeR_apply_write (v w : Nat) (x : Response) (s : State) :
    writeR w ((Effect.write v x).apply s) = { writeR w s with response := x } := by
  simp only [Effect.apply, writeR_of_response, writeR_writeR]

/-- Settles O40: the start, the bytes and FINAL leave in turn what COMPUTE writes at once, and only FINAL returns a value. -/
theorem computeEqualsItsExpansion : Obligations.ComputeEqualsItsExpansion := by
  intro s e data iv he _ hdata hiv
  have hd : ∀ d ∈ data, byteOk d = true := fun d hmem => byteOk_iff.2 (hdata d hmem)
  have hstart := exec_of_effect he (engineEffect_startOp hiv e.engine)
  have hcur := Effect.apply_current (.write (iv.getD e.params.init) .done) he
  have hrun := runOps_cons_of_done hstart rfl (runOps_bytes_final hcur hd)
  rw [writeR_apply_write] at hrun
  have hcompute := exec_of_effect (i := .compute data iv) he (congrArg some (computeEffect_ok hiv hd e.engine))
  exact ⟨_, _, hrun, hcompute, rfl, rfl, rfl, rfl, rfl⟩

/-! Where a list stops (R121, D4). -/

/-- Settles O43, by induction on the list: a well-formed operation hands back no error and keeps the constants. -/
theorem wellFormedListsRunToTheEnd : Obligations.WellFormedListsRunToTheEnd := by
  intro s e is he his
  induction is generalizing s e with
  | nil => exact ⟨_, e.engine.r, rfl, rfl, he, rfl, rfl⟩
  | cons i is ih =>
    simp only [List.mem_cons, forall_eq_or_imp] at his
    obtain ⟨⟨hwf, hconstruct, hillegal⟩, his⟩ := his
    obtain ⟨f, hf⟩ := effect_isSome (e := e) hconstruct
    have hne : ∀ err, (f.apply s).response ≠ .error err := fun err =>
      f.apply_response s ▸ handsBack_ne_error hf hwf hillegal err
    obtain ⟨u, r, hu, hstop, hcur, hsel, hpend⟩ := ih _ _ (f.apply_current he) his
    exact ⟨_, r, runOps_cons_of_no_error (exec_of_effect he hf) hne hu, hstop, hcur, hsel.trans (f.apply_sel s),
      hpend.trans (f.apply_pending s)⟩

/-- An operation with an operand out of range, or of the reserved code, only hands back an error. -/
theorem exec_of_refused {s : State} {e : Instance} {i : Instr} (he : s.current = some e) (hi : i.isConstruct = false)
    (h : i.wellFormed e.params.width = false ∨ i.isIllegal = true) :
    ∃ t err, exec i s = .next t ∧ SameButResponse s t ∧ t.response = .error err := by
  obtain ⟨f, hf⟩ := effect_isSome (e := e) hi
  obtain ⟨err, rfl⟩ := engineEffect_refuses hf h
  obtain ⟨t, ht⟩ := exec_of_keep he hf
  exact ⟨t, err, ht⟩

/-- Settles O44: the well-formed part runs to its end, and the refused operation stops the list there. -/
theorem listsStopAtTheFirstRefusal : Obligations.ListsStopAtTheFirstRefusal := by
  intro s e is i rest he his hi hbad
  obtain ⟨u, r, hu, hstop, hcur, -, -⟩ := wellFormedListsRunToTheEnd s e is he his
  obtain ⟨t, err, ht, hsame, hresp⟩ := exec_of_refused hcur hi hbad
  have hv := runOps_append_of_next hu hstop (runOps_cons_of_error rest ht hresp)
  exact ⟨u, _, err, hu, hv, rfl, List.append_nil _, hsame⟩

/-! The serialised bytes read back (R88). -/

/-- The low `n` bytes of a value, read little-endian, are the value modulo `2^(8n)`. -/
theorem foldr_littleEndian (n c : Nat) :
    ((List.range n).map fun k => c / 2 ^ (8 * k) % 256).foldr (fun b acc => b + 256 * acc) 0 = c % 2 ^ (8 * n) := by
  induction n generalizing c with
  | zero => simp [Nat.mod_one]
  | succ n ih =>
    have hshift : ∀ k, c / 2 ^ (8 * (k + 1)) = c / 256 / 2 ^ (8 * k) := fun k => by
      rw [Nat.div_div_eq_div_mul, Nat.mul_succ, Nat.add_comm, Nat.pow_add]
    have hpow : 2 ^ (8 * (n + 1)) = 256 * 2 ^ (8 * n) := by rw [Nat.mul_succ, Nat.add_comm, Nat.pow_add]
    rw [List.range_succ_eq_map, List.map_cons, List.map_map, List.foldr_cons, hpow, Nat.mod_mul, ← ih]
    simp [Function.comp_def, hshift]

/-- Settles O46: `ceil(WIDTH / 8)` bytes have room for a value of `WIDTH` bits. -/
theorem serialisedBytesRebuildTheResult : Obligations.SerialisedBytesRebuildTheResult := by
  intro e ⟨hp, hr⟩
  refine ⟨?_, fun b hb => lt_of_mem_serialise hb⟩
  have hroom : 2 ^ e.params.width ≤ 2 ^ (8 * ((e.params.width + 7) / 8)) := Nat.pow_le_pow_right Nat.two_pos (by omega)
  rw [serialise_little, foldr_littleEndian, Nat.mod_eq_of_lt ((finalValue_lt hp hr).trans_le hroom)]

end Sys2Proof.Machine
